-- ==== Sys2Proof/Word.lean ====
section
/-!
DEFINITION. The word types of the engine (00_scope.md R8): all values are unsigned bit vectors, bit 0 the least
significant. Signed values do not exist on this hardware.
-/

namespace Sys2Proof

/-- 8 bits: a general register, a memory cell, a timer (00 R8). -/
abbrev Byte := BitVec 8

/-- 16 bits: an instruction word, `I`, `pc`, a return address (00 R6, R8). -/
abbrev Word := BitVec 16

/-- 4 bits: a register number `x` or `y`, a key number, the row count `n` (00 R10, 30 R71). -/
abbrev Nibble := BitVec 4

/-- 12 bits: the address field `nnn` (00 R10, 30 R71). -/
abbrev Addr := BitVec 12

end Sys2Proof
end

