-- ==== Sys2Proof/Syntax.lean ====
section
/-!
DEFINITION. The 34 instructions of 30_encoding.md R76, one constructor per row of spec/opcode_table.json, in the table's
order. Every operand field has exactly the width R71 gives it, and R73 says that every value of every field is legal.
-/

namespace Sys2Proof

inductive Instr where
  /-- `00E0` CLS, 43 R160 -/
  | cls
  /-- `00EE` RET, 41 R122 -/
  | ret
  /-- `1nnn` JP nnn, 41 R120 -/
  | jp (nnn : Addr)
  /-- `2nnn` CALL nnn, 41 R121 -/
  | call (nnn : Addr)
  /-- `3xkk` SE Vx, kk, 41 R124 -/
  | seImm (x : Nibble) (kk : Byte)
  /-- `4xkk` SNE Vx, kk, 41 R125 -/
  | sneImm (x : Nibble) (kk : Byte)
  /-- `5xy0` SE Vx, Vy, 41 R126 -/
  | seReg (x y : Nibble)
  /-- `6xkk` LD Vx, kk, 40 R100 -/
  | ldImm (x : Nibble) (kk : Byte)
  /-- `7xkk` ADD Vx, kk, 40 R101 -/
  | addImm (x : Nibble) (kk : Byte)
  /-- `8xy0` LD Vx, Vy, 40 R102 -/
  | ldReg (x y : Nibble)
  /-- `8xy1` OR Vx, Vy, 40 R103 -/
  | orReg (x y : Nibble)
  /-- `8xy2` AND Vx, Vy, 40 R104 -/
  | andReg (x y : Nibble)
  /-- `8xy3` XOR Vx, Vy, 40 R105 -/
  | xorReg (x y : Nibble)
  /-- `8xy4` ADD Vx, Vy, 40 R106 -/
  | addReg (x y : Nibble)
  /-- `8xy5` SUB Vx, Vy, 40 R107 -/
  | subReg (x y : Nibble)
  /-- `8xy6` SHR Vx, 40 R108; the field `y` is kept and ignored -/
  | shr (x y : Nibble)
  /-- `8xy7` SUBN Vx, Vy, 40 R109 -/
  | subnReg (x y : Nibble)
  /-- `8xyE` SHL Vx, 40 R110; the field `y` is kept and ignored -/
  | shl (x y : Nibble)
  /-- `9xy0` SNE Vx, Vy, 41 R127 -/
  | sneReg (x y : Nibble)
  /-- `Annn` LD I, nnn, 42 R140 -/
  | ldIndex (nnn : Addr)
  /-- `Bnnn` JP V0, nnn, 41 R123 -/
  | jpV0 (nnn : Addr)
  /-- `Cxkk` RND Vx, kk, 40 R112 -/
  | rnd (x : Nibble) (kk : Byte)
  /-- `Dxyn` DRW Vx, Vy, n, 43 R161 -/
  | drw (x y n : Nibble)
  /-- `Ex9E` SKP Vx, 44 R173 -/
  | skp (x : Nibble)
  /-- `ExA1` SKNP Vx, 44 R174 -/
  | sknp (x : Nibble)
  /-- `Fx07` LD Vx, DT, 44 R170 -/
  | readDelay (x : Nibble)
  /-- `Fx0A` LD Vx, K, 44 R175 -/
  | waitKey (x : Nibble)
  /-- `Fx15` LD DT, Vx, 44 R171 -/
  | setDelay (x : Nibble)
  /-- `Fx18` LD ST, Vx, 44 R172 -/
  | setSound (x : Nibble)
  /-- `Fx1E` ADD I, Vx, 42 R141 -/
  | addIndex (x : Nibble)
  /-- `Fx29` LD F, Vx, 42 R142 -/
  | ldFont (x : Nibble)
  /-- `Fx33` LD B, Vx, 42 R143 -/
  | storeBcd (x : Nibble)
  /-- `Fx55` LD [I], Vx, 42 R144 -/
  | storeRegs (x : Nibble)
  /-- `Fx65` LD Vx, [I], 42 R145 -/
  | loadRegs (x : Nibble)
  deriving DecidableEq, Repr

end Sys2Proof
end

