-- ==== Sys2Proof/WellFormed.lean ====
section
/-!
DEFINITION. Which instruction words are legal, written from the list of illegal words of 30_encoding.md R78 and R79, group
by group, and NOT from the decoder. An `Instr` needs no check of its own: its fields have exactly the widths of R71, and by
R73 every value of every field is legal, so every term of `Instr` is well-formed. What can be ill-formed is a word.
-/

namespace Sys2Proof

/-- Group 0: only `00E0` and `00EE` (30 R78, R79). -/
def legalGroup0 (w : Word) : Bool := w == 0x00E0#16 || w == 0x00EE#16

/-- Groups 5 and 9: the low nibble must be 0 (30 R78). -/
def legalGroup59 (w : Word) : Bool := w.extractLsb' 0 4 == 0x0#4

/-- Group 8: the low nibble is not 8, 9, A, B, C, D or F (30 R78). -/
def legalGroup8 (w : Word) : Bool :=
  !([0x8#4, 0x9#4, 0xA#4, 0xB#4, 0xC#4, 0xD#4, 0xF#4].contains (w.extractLsb' 0 4))

/-- Group E: the low byte is 9E or A1 (30 R78). -/
def legalGroupE (w : Word) : Bool := [0x9E#8, 0xA1#8].contains (w.extractLsb' 0 8)

/-- Group F: the low byte is one of nine (30 R78). -/
def legalGroupF (w : Word) : Bool :=
  [0x07#8, 0x0A#8, 0x15#8, 0x18#8, 0x1E#8, 0x29#8, 0x33#8, 0x55#8, 0x65#8].contains (w.extractLsb' 0 8)

/-- A word is legal exactly when its group's check accepts it; groups 1, 2, 3, 4, 6, 7, A, B, C and D have no illegal
word (30 R78). -/
def legalWord (w : Word) : Bool :=
  if w.extractLsb' 12 4 = 0x0#4 then legalGroup0 w
  else if w.extractLsb' 12 4 = 0x5#4 ∨ w.extractLsb' 12 4 = 0x9#4 then legalGroup59 w
  else if w.extractLsb' 12 4 = 0x8#4 then legalGroup8 w
  else if w.extractLsb' 12 4 = 0xE#4 then legalGroupE w
  else if w.extractLsb' 12 4 = 0xF#4 then legalGroupF w
  else true

end Sys2Proof
end

