-- ==== Sys2Proof/Decode.lean ====
section
/-!
DEFINITION. The decoder of 30_encoding.md R74 to R76 (total on all words, refusing by name), and after it the encoder,
written from the same map, and the map itself as rows of match and mask.
-/

namespace Sys2Proof

/-- What a word decodes to: "`decode : word -> Instruction | Unknown`" (30 R74). -/
inductive Decoded where
  /-- the word is this instruction -/
  | instr (i : Instr)
  /-- the word matches no row of the map; executing it raises UnknownOpcode (30 R75, R78) -/
  | unknown (w : Word)
  deriving DecidableEq, Repr

/-! ## The fields of a word (30 R71) -/

/-- `op = w[15:12]` -/
def fieldOp (w : Word) : Nibble := w.extractLsb' 12 4
/-- `x = w[11:8]` -/
def fieldX (w : Word) : Nibble := w.extractLsb' 8 4
/-- `y = w[7:4]` -/
def fieldY (w : Word) : Nibble := w.extractLsb' 4 4
/-- `n = w[3:0]` -/
def fieldN (w : Word) : Nibble := w.extractLsb' 0 4
/-- `kk = w[7:0]` -/
def fieldKK (w : Word) : Byte := w.extractLsb' 0 8
/-- `nnn = w[11:0]` -/
def fieldNNN (w : Word) : Addr := w.extractLsb' 0 12

/-! ## The decoder (30 R74: the high nibble first; groups 0, 8, E and F have a second dispatch) -/

/-- Group 0: the whole word is fixed (30 R74, R79). -/
def decodeGroup0 (w : Word) : Decoded :=
  if w = 0x00E0#16 then .instr .cls
  else if w = 0x00EE#16 then .instr .ret
  else .unknown w

/-- Group 8: dispatch on the low nibble (30 R74). -/
def decodeGroup8 (w : Word) (x y n : Nibble) : Decoded :=
  if n = 0x0#4 then .instr (.ldReg x y)
  else if n = 0x1#4 then .instr (.orReg x y)
  else if n = 0x2#4 then .instr (.andReg x y)
  else if n = 0x3#4 then .instr (.xorReg x y)
  else if n = 0x4#4 then .instr (.addReg x y)
  else if n = 0x5#4 then .instr (.subReg x y)
  else if n = 0x6#4 then .instr (.shr x y)
  else if n = 0x7#4 then .instr (.subnReg x y)
  else if n = 0xE#4 then .instr (.shl x y)
  else .unknown w

/-- Group E: dispatch on the low byte (30 R74). -/
def decodeGroupE (w : Word) (x : Nibble) (kk : Byte) : Decoded :=
  if kk = 0x9E#8 then .instr (.skp x)
  else if kk = 0xA1#8 then .instr (.sknp x)
  else .unknown w

/-- Group F: dispatch on the low byte (30 R74). -/
def decodeGroupF (w : Word) (x : Nibble) (kk : Byte) : Decoded :=
  if kk = 0x07#8 then .instr (.readDelay x)
  else if kk = 0x0A#8 then .instr (.waitKey x)
  else if kk = 0x15#8 then .instr (.setDelay x)
  else if kk = 0x18#8 then .instr (.setSound x)
  else if kk = 0x1E#8 then .instr (.addIndex x)
  else if kk = 0x29#8 then .instr (.ldFont x)
  else if kk = 0x33#8 then .instr (.storeBcd x)
  else if kk = 0x55#8 then .instr (.storeRegs x)
  else if kk = 0x65#8 then .instr (.loadRegs x)
  else .unknown w

/-- The decoder on the fields of `w` (30 R74 to R76, R78). -/
def decodeFields (w : Word) (op x y n : Nibble) (kk : Byte) (nnn : Addr) : Decoded :=
  if op = 0x0#4 then decodeGroup0 w
  else if op = 0x1#4 then .instr (.jp nnn)
  else if op = 0x2#4 then .instr (.call nnn)
  else if op = 0x3#4 then .instr (.seImm x kk)
  else if op = 0x4#4 then .instr (.sneImm x kk)
  else if op = 0x5#4 then (if n = 0x0#4 then .instr (.seReg x y) else .unknown w)
  else if op = 0x6#4 then .instr (.ldImm x kk)
  else if op = 0x7#4 then .instr (.addImm x kk)
  else if op = 0x8#4 then decodeGroup8 w x y n
  else if op = 0x9#4 then (if n = 0x0#4 then .instr (.sneReg x y) else .unknown w)
  else if op = 0xA#4 then .instr (.ldIndex nnn)
  else if op = 0xB#4 then .instr (.jpV0 nnn)
  else if op = 0xC#4 then .instr (.rnd x kk)
  else if op = 0xD#4 then .instr (.drw x y n)
  else if op = 0xE#4 then decodeGroupE w x kk
  else decodeGroupF w x kk

/-- `decode(w)`: total on all 65536 words, a function of the word alone (30 R74, R75). -/
def decode (w : Word) : Decoded :=
  decodeFields w (fieldOp w) (fieldX w) (fieldY w) (fieldN w) (fieldKK w) (fieldNNN w)

/-- The word of two bytes in memory order, big-endian: the byte at the lower address is the high byte (20 R55, R56). -/
def wordOfBytes (first second : Byte) : Word := first ++ second

/-- The byte stored at the instruction's address (20 R56). -/
def firstByte (w : Word) : Byte := w.extractLsb' 8 8

/-- The byte stored at the instruction's address plus 1 (20 R56). -/
def secondByte (w : Word) : Byte := w.extractLsb' 0 8

/-- The word a table row's `nbits` bits make: bit 0 is the least significant bit of the 16-bit word, and every bit above
`nbits` is 0. -/
def tableWord (nbits w : Nat) : Word := BitVec.ofNat 16 (w % 2 ^ nbits)

/-- What the decoder reads from an instruction whose bits, numbered as spec/opcode_table.json numbers them, are `w`: the word
is laid out as two bytes, high byte first, and decoded. -/
def decodeTableWord (nbits w : Nat) : Option Instr :=
  match decode (wordOfBytes (firstByte (tableWord nbits w)) (secondByte (tableWord nbits w))) with
  | .instr i => some i
  | .unknown _ => none

/-! ## The encoder (30 R72, R76) -/

/-- The word of an instruction: `op` in bits 15 to 12, then the fields its format names (30 R72, R76). -/
def encode : Instr → Word
  | .cls => 0x00E0#16
  | .ret => 0x00EE#16
  | .jp nnn => 0x1#4 ++ nnn
  | .call nnn => 0x2#4 ++ nnn
  | .seImm x kk => 0x3#4 ++ x ++ kk
  | .sneImm x kk => 0x4#4 ++ x ++ kk
  | .seReg x y => 0x5#4 ++ x ++ y ++ 0x0#4
  | .ldImm x kk => 0x6#4 ++ x ++ kk
  | .addImm x kk => 0x7#4 ++ x ++ kk
  | .ldReg x y => 0x8#4 ++ x ++ y ++ 0x0#4
  | .orReg x y => 0x8#4 ++ x ++ y ++ 0x1#4
  | .andReg x y => 0x8#4 ++ x ++ y ++ 0x2#4
  | .xorReg x y => 0x8#4 ++ x ++ y ++ 0x3#4
  | .addReg x y => 0x8#4 ++ x ++ y ++ 0x4#4
  | .subReg x y => 0x8#4 ++ x ++ y ++ 0x5#4
  | .shr x y => 0x8#4 ++ x ++ y ++ 0x6#4
  | .subnReg x y => 0x8#4 ++ x ++ y ++ 0x7#4
  | .shl x y => 0x8#4 ++ x ++ y ++ 0xE#4
  | .sneReg x y => 0x9#4 ++ x ++ y ++ 0x0#4
  | .ldIndex nnn => 0xA#4 ++ nnn
  | .jpV0 nnn => 0xB#4 ++ nnn
  | .rnd x kk => 0xC#4 ++ x ++ kk
  | .drw x y n => 0xD#4 ++ x ++ y ++ n
  | .skp x => 0xE#4 ++ x ++ 0x9E#8
  | .sknp x => 0xE#4 ++ x ++ 0xA1#8
  | .readDelay x => 0xF#4 ++ x ++ 0x07#8
  | .waitKey x => 0xF#4 ++ x ++ 0x0A#8
  | .setDelay x => 0xF#4 ++ x ++ 0x15#8
  | .setSound x => 0xF#4 ++ x ++ 0x18#8
  | .addIndex x => 0xF#4 ++ x ++ 0x1E#8
  | .ldFont x => 0xF#4 ++ x ++ 0x29#8
  | .storeBcd x => 0xF#4 ++ x ++ 0x33#8
  | .storeRegs x => 0xF#4 ++ x ++ 0x55#8
  | .loadRegs x => 0xF#4 ++ x ++ 0x65#8

/-! ## The opcode map as match and mask (30 R75, R76) -/

/-- One row of the map: a word `w` belongs to it exactly when `w &&& mask = bits` (30 R75). -/
structure OpRow where
  bits : Word
  mask : Word
  deriving DecidableEq, Repr

/-- The columns `match` and `mask` of the row an instruction belongs to (30 R76). -/
def rowOf : Instr → OpRow
  | .cls => ⟨0x00E0#16, 0xFFFF#16⟩
  | .ret => ⟨0x00EE#16, 0xFFFF#16⟩
  | .jp _ => ⟨0x1000#16, 0xF000#16⟩
  | .call _ => ⟨0x2000#16, 0xF000#16⟩
  | .seImm _ _ => ⟨0x3000#16, 0xF000#16⟩
  | .sneImm _ _ => ⟨0x4000#16, 0xF000#16⟩
  | .seReg _ _ => ⟨0x5000#16, 0xF00F#16⟩
  | .ldImm _ _ => ⟨0x6000#16, 0xF000#16⟩
  | .addImm _ _ => ⟨0x7000#16, 0xF000#16⟩
  | .ldReg _ _ => ⟨0x8000#16, 0xF00F#16⟩
  | .orReg _ _ => ⟨0x8001#16, 0xF00F#16⟩
  | .andReg _ _ => ⟨0x8002#16, 0xF00F#16⟩
  | .xorReg _ _ => ⟨0x8003#16, 0xF00F#16⟩
  | .addReg _ _ => ⟨0x8004#16, 0xF00F#16⟩
  | .subReg _ _ => ⟨0x8005#16, 0xF00F#16⟩
  | .shr _ _ => ⟨0x8006#16, 0xF00F#16⟩
  | .subnReg _ _ => ⟨0x8007#16, 0xF00F#16⟩
  | .shl _ _ => ⟨0x800E#16, 0xF00F#16⟩
  | .sneReg _ _ => ⟨0x9000#16, 0xF00F#16⟩
  | .ldIndex _ => ⟨0xA000#16, 0xF000#16⟩
  | .jpV0 _ => ⟨0xB000#16, 0xF000#16⟩
  | .rnd _ _ => ⟨0xC000#16, 0xF000#16⟩
  | .drw _ _ _ => ⟨0xD000#16, 0xF000#16⟩
  | .skp _ => ⟨0xE09E#16, 0xF0FF#16⟩
  | .sknp _ => ⟨0xE0A1#16, 0xF0FF#16⟩
  | .readDelay _ => ⟨0xF007#16, 0xF0FF#16⟩
  | .waitKey _ => ⟨0xF00A#16, 0xF0FF#16⟩
  | .setDelay _ => ⟨0xF015#16, 0xF0FF#16⟩
  | .setSound _ => ⟨0xF018#16, 0xF0FF#16⟩
  | .addIndex _ => ⟨0xF01E#16, 0xF0FF#16⟩
  | .ldFont _ => ⟨0xF029#16, 0xF0FF#16⟩
  | .storeBcd _ => ⟨0xF033#16, 0xF0FF#16⟩
  | .storeRegs _ => ⟨0xF055#16, 0xF0FF#16⟩
  | .loadRegs _ => ⟨0xF065#16, 0xF0FF#16⟩

/-- The 34 rows of the map, in the table's order (30 R76). -/
def opcodeTable : List OpRow :=
  [rowOf .cls, rowOf .ret, rowOf (.jp 0), rowOf (.call 0), rowOf (.seImm 0 0), rowOf (.sneImm 0 0),
   rowOf (.seReg 0 0), rowOf (.ldImm 0 0), rowOf (.addImm 0 0)] ++
  [rowOf (.ldReg 0 0), rowOf (.orReg 0 0), rowOf (.andReg 0 0), rowOf (.xorReg 0 0), rowOf (.addReg 0 0),
   rowOf (.subReg 0 0), rowOf (.shr 0 0), rowOf (.subnReg 0 0), rowOf (.shl 0 0), rowOf (.sneReg 0 0)] ++
  [rowOf (.ldIndex 0), rowOf (.jpV0 0), rowOf (.rnd 0 0), rowOf (.drw 0 0 0), rowOf (.skp 0), rowOf (.sknp 0),
   rowOf (.readDelay 0), rowOf (.waitKey 0), rowOf (.setDelay 0), rowOf (.setSound 0), rowOf (.addIndex 0),
   rowOf (.ldFont 0), rowOf (.storeBcd 0), rowOf (.storeRegs 0), rowOf (.loadRegs 0)]

/-- The word belongs to the row (30 R75). -/
def OpRow.matchesWord (r : OpRow) (w : Word) : Bool := w &&& r.mask == r.bits

end Sys2Proof
end

