-- ==== Sys2Proof/Config.lean ====
section
/-!
DEFINITION. What is fixed from outside the engine (00_scope.md R7, 10_state.md R34): the parameter FONT's type, the canonical
start address, and the free value drawn by `Cxkk`.
-/

namespace Sys2Proof

/-- The parameter FONT: any 80 bytes (00 R7, 10 R24, R34). It is an argument of `initialize` and of the command relation. -/
abbrev Font := Vector Byte 80

/-- START_ADDRESS, "canonical value 0x200" (00 R7, 92 D25): the argument of the `initialize` that `State.reset` stands
for. DESIGN CHOICE (log entry 2): the command `cmdInitialize` takes any 16-bit value. -/
def Config.startAddress : Word := 0x0200#16

/-- `rand` (00 R7, 40 R112, 92 D29): the byte of the k-th draw of a run, a FREE VALUE with no body, so that nothing can
evaluate it or prove a value of it. The count k is the field `draws` of `State`. DESIGN CHOICE (log entry 3). -/
opaque Config.rand : Nat → Byte

end Sys2Proof
end

