-- ==== Sys2Proof/Machine/State.lean ====
section
/-!
DEFINITION. The state of the engine (10_state.md R20): the thirteen elements of the spec and one counter of the model's own,
as plain data, and the state right after `initialize(0x200)` (10 R35).
-/

namespace Sys2Proof.Machine

/-- Main memory (10 R23, 20 R50): the cells that differ from `State.reset`'s, addresses strictly rising. What an unlisted
address reads as is `resetByte` in Machine/Ops.lean. -/
abbrev Memory := List Host.Cell

/-- The input-wait state machine (10 R31): "States: `Running`, `WaitingForKey(target_register)`." -/
inductive RunState where
  | running
  | waitingForKey (target : Nibble)
  deriving DecidableEq, Repr

/-- The five faults that a `step` latches (10 R33, 60 R210). -/
inductive FaultKind where
  /-- 60 R211: the word decodes to no instruction -/
  | unknownOpcode
  /-- 60 R212: CALL with sixteen live entries -/
  | stackOverflow
  /-- 60 R213: RET with an empty stack -/
  | stackUnderflow
  /-- 60 R214: a fetch with pc above 0xFFE -/
  | pcOutOfRange
  /-- 60 R215: a data access above 0xFFF -/
  | addressOutOfRange
  deriving DecidableEq, Repr

/-- One fault record `(kind, opcode, at)` (10 R33). -/
structure FaultRecord where
  kind : FaultKind
  /-- the word that faulted; absent for PcOutOfRange -/
  opcode : Option Word
  /-- `at`: the pc when the step began -/
  address : Word
  deriving DecidableEq, Repr

/-- The state of the engine (10 R20). -/
structure State where
  /-- (1) `mem` (10 R23) -/
  mem : Memory
  /-- (2) `V[0..15]` (10 R21) -/
  v : Vector Byte 16
  /-- (3) `I` (10 R25) -/
  i : Word
  /-- (4) `pc` (10 R26) -/
  pc : Word
  /-- (5) `stack[0..15]` (10 R27) -/
  stack : Vector Word 16
  /-- (6) `sp`, a depth 0 to 16 (10 R27) -/
  sp : Fin 17
  /-- (7) `DT` (10 R28) -/
  dt : Byte
  /-- (8) `ST` (10 R28) -/
  st : Byte
  /-- (9) `fb`: cell `y*64 + x` is bit `y*64 + x` (10 R29; log entry 8) -/
  fb : BitVec 2048
  /-- (10) `keys[0..15]`, true while held (10 R30) -/
  keys : Vector Bool 16
  /-- (11) `run` (10 R31) -/
  run : RunState
  /-- (12) `redraw_pending` (10 R32) -/
  redrawPending : Bool
  /-- (13) `fault`, the latch (10 R33) -/
  fault : Option FaultRecord
  /-- the MODEL's own count of the bytes drawn by `Cxkk` (log entries 3 and 4) -/
  draws : Nat
  deriving DecidableEq, Repr

/-- Faults in the sense of `Host.Outcome.fault`: the machine would stop with no next state. NONE exists on this hardware:
every fault of the spec is the latch of `State.fault`, a next state (60 R216, 45 R192, log entry 5). So nobody raises one
(safe). -/
inductive Fault where
  deriving DecidableEq, Repr

/-- Refusals. -/
inductive Refusal where
  /-- Raised by an arm of `exec` whose instruction has no meaning yet: none is left, so nobody raises it (safe). -/
  | notModelled (mnemonic : String)
  deriving DecidableEq, Repr

/-- What an instruction's meaning and a step answer. -/
abbrev Result := Host.Outcome State Fault Refusal

/-- The engine after `initialize(0x200)` with the default of FONT (10 R35; log entries 1 and 2): memory lists nothing, so it
reads as that table and zeros; every other element is zero, `Running` or `None`, and `pc` is START_ADDRESS. It is
`initialized` at the two defaults (`State.initialized_defaults`). -/
def State.reset : State where
  mem := []
  v := Vector.replicate 16 0x00#8
  i := 0x0000#16
  pc := Config.startAddress
  stack := Vector.replicate 16 0x0000#16
  sp := 0
  dt := 0x00#8
  st := 0x00#8
  fb := 0#2048
  keys := Vector.replicate 16 false
  run := .running
  redrawPending := false
  fault := none
  draws := 0

end Sys2Proof.Machine
end

