-- ==== Sys2Proof/Machine/Ops.lean ====
section
/-!
DEFINITION. The named operations every meaning is written over: memory, registers, the other state elements, the call stack,
the framebuffer's cells, entering a fault (60_exceptions.md R216) and, beside it, the only way out (60 R220).
-/

namespace Sys2Proof.Machine

/-! ## Memory (20_memory.md) -/

/-- The default of the parameter FONT: the table of 10 R24, sixteen glyphs of five bytes, top row first. Only `State.reset`
takes this default (log entry 1); every other engine passes its own FONT to `initialize`. -/
def defaultFontBytes : List Byte :=
  [0xF0#8, 0x90#8, 0x90#8, 0x90#8, 0xF0#8,  0x20#8, 0x60#8, 0x20#8, 0x20#8, 0x70#8] ++
  [0xF0#8, 0x10#8, 0xF0#8, 0x80#8, 0xF0#8,  0xF0#8, 0x10#8, 0xF0#8, 0x10#8, 0xF0#8] ++
  [0x90#8, 0x90#8, 0xF0#8, 0x10#8, 0x10#8,  0xF0#8, 0x80#8, 0xF0#8, 0x10#8, 0xF0#8] ++
  [0xF0#8, 0x80#8, 0xF0#8, 0x90#8, 0xF0#8,  0xF0#8, 0x10#8, 0x20#8, 0x40#8, 0x40#8] ++
  [0xF0#8, 0x90#8, 0xF0#8, 0x90#8, 0xF0#8,  0xF0#8, 0x90#8, 0xF0#8, 0x10#8, 0xF0#8] ++
  [0xF0#8, 0x90#8, 0xF0#8, 0x90#8, 0x90#8,  0xE0#8, 0x90#8, 0xE0#8, 0x90#8, 0xE0#8] ++
  [0xF0#8, 0x80#8, 0x80#8, 0x80#8, 0xF0#8,  0xE0#8, 0x90#8, 0x90#8, 0x90#8, 0xE0#8] ++
  [0xF0#8, 0x80#8, 0xF0#8, 0x80#8, 0xF0#8,  0xF0#8, 0x80#8, 0xF0#8, 0x80#8, 0x80#8]

/-- The default of FONT as a value of the parameter's type (10 R24). -/
def defaultFont : Font := ⟨defaultFontBytes.toArray, rfl⟩

/-- What an address that memory does not list reads as: its contents in `State.reset`, the default FONT at 0x000 to 0x04F and
zero above (10 R23, R35). It fixes how memories are written down and not what an engine holds: the memory of an engine with
another FONT lists the bytes in which the two tables differ (log entry 14). -/
def resetByte (a : Nat) : Byte := defaultFontBytes.getD a 0x00#8

/-- The size of `mem` (00 R6): addresses 0x000 to 0xFFF. -/
def memSize : Nat := 4096

/-- The byte at an address. No meaning reads an address above 0xFFF: `extentFits` is asked first (20 R54). -/
def Memory.read : Memory → Nat → Byte
  | [], a => resetByte a
  | (b, w) :: m, a => if b = a then w else Memory.read m a

/-- List the value `w` at `a`, keeping the addresses rising. -/
def Memory.insert : Memory → Nat → Byte → Memory
  | [], a, w => [(a, w)]
  | (b, u) :: m, a, w =>
    if a < b then (a, w) :: (b, u) :: m
    else if a = b then (a, w) :: m
    else (b, u) :: Memory.insert m a w

/-- Unlist the address `a`. -/
def Memory.erase : Memory → Nat → Memory
  | [], _ => []
  | (b, u) :: m, a => if b = a then Memory.erase m a else (b, u) :: Memory.erase m a

/-- `mem[a] <- w` (20 R53): writing what an unlisted address reads as unlists the address, so the form stays canonical. -/
def Memory.write (m : Memory) (a : Nat) (w : Byte) : Memory :=
  if w = resetByte a then m.erase a else m.insert a w

/-- Bytes written at ascending addresses from `a` on (20 R58). -/
def Memory.writeBytes : Memory → Nat → List Byte → Memory
  | m, _, [] => m
  | m, a, w :: ws => Memory.writeBytes (m.write a w) (a + 1) ws

/-- Memory after `initialize`: `mem[i] <- FONT[i]` for i in 0..79 and zero above (45 R191, 10 R24, R35). -/
def Memory.loadFont (font : Font) : Memory := Memory.writeBytes [] 0 font.toList

/-- The canonical form from address `lo` on: addresses strictly rising and at most 0xFFF, no entry equal to what an
unlisted address reads as. -/
def Memory.wfFrom : Nat → Memory → Bool
  | _, [] => true
  | lo, (a, w) :: m => decide (lo ≤ a) && decide (a < memSize) && (w != resetByte a) && Memory.wfFrom (a + 1) m

/-- The canonical form of memory: equal memories are equal lists. -/
def Memory.wf (m : Memory) : Bool := Memory.wfFrom 0 m

/-- `mem[a]`: what `MemRead(a, 1)` gives for an address up to 0xFFF (20 R52). -/
def State.byteAt (s : State) (a : Nat) : Byte := s.mem.read a

/-! ## Registers and the other elements -/

/-- `V[x]` (10 R21) -/
def State.reg (s : State) (x : Nibble) : Byte := s.v[x.toNat]'x.isLt

/-- `V[x] <- b` (10 R21) -/
def State.setReg (s : State) (x : Nibble) (b : Byte) : State := { s with v := s.v.set x.toNat b x.isLt }

/-- `I <- a` (10 R25) -/
def State.setIndex (s : State) (a : Word) : State := { s with i := a }

/-- `pc <- target`, "the only form of control transfer" (00 R9) -/
def State.setPc (s : State) (target : Word) : State := { s with pc := target }

/-- `mem` replaced by what a store made of it (20 R53) -/
def State.setMem (s : State) (m : Memory) : State := { s with mem := m }

/-- `DT <- b` (10 R28) -/
def State.setDT (s : State) (b : Byte) : State := { s with dt := b }

/-- `ST <- b` (10 R28) -/
def State.setST (s : State) (b : Byte) : State := { s with st := b }

/-- `fb` replaced by what a draw or a clear made of it, and `redraw_pending <- 1` (10 R29, R32: "set whenever `display` is
mutated") -/
def State.setDisplay (s : State) (f : BitVec 2048) : State := { s with fb := f, redrawPending := true }

/-- `run <- r` (10 R31) -/
def State.setRun (s : State) (r : RunState) : State := { s with run := r }

/-- `keys[k]` (10 R30) -/
def State.key (s : State) (k : Nibble) : Bool := s.keys[k.toNat]'k.isLt

/-- `keys[k] <- b` (10 R30) -/
def State.setKeyState (s : State) (k : Nibble) (b : Bool) : State := { s with keys := s.keys.set k.toNat b k.isLt }

/-- `redraw_pending <- 0` (10 R32) -/
def State.clearRedraw (s : State) : State := { s with redrawPending := false }

/-- The next free byte, `r <- rand` (40 R112): the count moves on, so that every execution draws a fresh one. -/
def State.nextDraw (s : State) : State := { s with draws := s.draws + 1 }

/-- A skip is `pc <- pc + 2` on the post-fetch pc (41 R128). -/
def State.skipIf (s : State) (c : Bool) : State := if c then s.setPc (s.pc + 2#16) else s

/-! ## The call stack (10 R27) -/

/-- `stack[k]` -/
def State.stackSlot (s : State) (k : Fin 16) : Word := s.stack[k.val]

/-- `stack[sp] <- a; sp <- sp + 1` while a slot is free (41 R121); none when sixteen entries are live. -/
def State.push (s : State) (a : Word) : Option State :=
  if h : s.sp.val < 16 then
    some { s with stack := s.stack.set s.sp.val a h, sp := ⟨s.sp.val + 1, Nat.succ_lt_succ h⟩ }
  else none

/-- `sp <- sp - 1; pc <- stack[sp]` while an entry is live (41 R122); none when the stack is empty. -/
def State.popPc (s : State) : Option State :=
  if h : 0 < s.sp.val then
    some { s with
      sp := ⟨s.sp.val - 1, Nat.lt_of_le_of_lt (Nat.sub_le _ _) s.sp.isLt⟩
      pc := s.stack[s.sp.val - 1]'(Nat.lt_of_lt_of_le (Nat.sub_lt h Nat.one_pos) (Nat.le_of_lt_succ s.sp.isLt)) }
  else none

/-! ## The framebuffer's cells (10 R29) -/

/-- The index of the cell at column `x`, row `y`: `y*64 + x` (10 R29). -/
def cellIndex (x y : Nat) : Nat := y * 64 + x

/-- The cell at column `x`, row `y` (10 R29, 45 R197). -/
def fbCell (f : BitVec 2048) (x y : Nat) : Bool := f.getLsbD (cellIndex x y)

/-- `fb[y*64 + x] <- old ^ bit` (43 R161). -/
def fbXor (f : BitVec 2048) (x y : Nat) (bit : Bool) : BitVec 2048 :=
  if bit then f ^^^ BitVec.twoPow 2048 (cellIndex x y) else f

/-! ## Faults (60 R216) and the only way out of one (60 R220) -/

/-- `fault <- (kind, w, A)` and nothing else (60 R216). -/
def State.latch (s : State) (r : FaultRecord) : State := { s with fault := some r }

/-- `raise <Fault>(w, A)` inside an instruction: the word is the instruction's own, and A, the pc when the step began, is
the post-fetch pc less 2 (00 R12; log entry 6). The answer is a next state: the latch IS the entry (60 R216). -/
def State.raise (s : State) (kind : FaultKind) (i : Instr) : Result :=
  .next (s.latch { kind := kind, opcode := some (encode i), address := s.pc - 2#16 })

/-- `initialize(start_address)` (45 R191) of the engine with the table `font`: every element at its reset value, the font in
memory, pc at the address given. The model's own draw count goes on (log entry 4). -/
def State.initialized (s : State) (font : Font) (start : Word) : State :=
  { State.reset with mem := Memory.loadFont font, pc := start, draws := s.draws }

end Sys2Proof.Machine
end

