-- ==== Sys2Proof/Machine/Operands.lean ====
section
/-!
DEFINITION. Operand forms (30_encoding.md R73, 42_index_memory.md R146): absolute addresses, key and glyph numbers, the base
plus offset address and its range check, decimal digits.
-/

namespace Sys2Proof.Machine

/-- `zext_16(nnn)`: an absolute byte address, not scaled (30 R73). -/
def absAddr (nnn : Addr) : Word := nnn.setWidth 16

/-- `zext_16(a)` of a register's byte (41 R123, 42 R141). -/
def zext16 (b : Byte) : Word := b.setWidth 16

/-- `a[3:0]`: the key or glyph a register names (44 R176, 42 R142). -/
def lowNibble (b : Byte) : Nibble := b.extractLsb' 0 4

/-- The effective address `I + offset`, a natural number, not wrapped and not masked (42 R146, 20 R54). -/
def effAddr (base : Word) (offset : Nat) : Nat := base.toNat + offset

/-- The whole extent `base .. base + len - 1` lies in 0x000 to 0xFFF; an empty extent always does (20 R54). -/
def extentFits (base : Word) (len : Nat) : Bool := decide (len = 0 ∨ effAddr base len ≤ memSize)

/-- The address of the glyph of hex digit `d`: `5 * d` (42 R142, 10 R24). -/
def glyphAddr (d : Nibble) : Word := BitVec.ofNat 16 (5 * d.toNat)

/-- The decimal digits of a byte, hundreds first (42 R143). -/
def bcdDigits (a : Byte) : List Byte :=
  [BitVec.ofNat 8 (a.toNat / 100), BitVec.ofNat 8 (a.toNat / 10 % 10), BitVec.ofNat 8 (a.toNat % 10)]

/-- `V[0], …, V[count - 1]`, the registers of a range store, in order (42 R144). -/
def State.firstRegs (s : State) (count : Nat) : List Byte := s.v.toList.take count

/-- `for i in 0..count-1 (ascending): V[i] <- mem[base + i]` (42 R145). -/
def State.loadFirst (s : State) (base : Nat) : Nat → State
  | 0 => s
  | k + 1 => (State.loadFirst s base k).setReg (BitVec.ofNat 4 k) (s.byteAt (base + k))

end Sys2Proof.Machine
end

