-- ==== Sys2Proof/Machine/Flags.lean ====
section
/-!
DEFINITION. VF as the flag (10_state.md R22, 40_alu.md R111, R113): the four flag computations of the ALU, and the order
of the flag write and the result write.
-/

namespace Sys2Proof.Machine

/-- The register that is also the flag, `VF = V[15]` (10 R22). -/
def regF : Nibble := 0xF#4

/-- "The flag value is always 0x00 or 0x01, written as a full byte" (10 R22). -/
def flagByte (c : Bool) : Byte := if c then 0x01#8 else 0x00#8

/-- Carry of `8xy4`: the sum before wrapping exceeds 255 (40 R106, R111). -/
def carryOut (a b : Byte) : Bool := decide (255 < a.toNat + b.toNat)

/-- Not borrow of minuend less subtrahend: minuend >= subtrahend, unsigned (40 R107, R109, R111). -/
def notBorrow (minuend subtrahend : Byte) : Bool := decide (subtrahend.toNat ≤ minuend.toNat)

/-- The bit SHR shifts out: old bit 0 (40 R108). -/
def shrOut (a : Byte) : Bool := a.getLsbD 0

/-- The bit SHL shifts out: old bit 7 (40 R110). -/
def shlOut (a : Byte) : Bool := a.getLsbD 7

/-- `V[0xF] <- flag; V[x] <- result`: the flag first, the result second, so with x = 0xF VF ends as the result
(10 R22, 40 R113). Both are functions of the registers before the instruction. -/
def State.setFlagged (s : State) (x : Nibble) (flag : Bool) (result : Byte) : State :=
  (s.setReg regF (flagByte flag)).setReg x result

end Sys2Proof.Machine
end

