-- ==== Sys2Proof/Machine/Alu.lean ====
section
/-!
DEFINITION. The meanings of 40_alu.md: register loads, arithmetic, bitwise operations, shifts, random. Each is called on the
state after fetch, pc = A + 2 (10_state.md R26); none of them can fault.
-/

namespace Sys2Proof.Machine

/-- `6xkk` LD Vx, kk (40 R100) -/
def execLdImm (x : Nibble) (kk : Byte) (s : State) : Result := .next (s.setReg x kk)

/-- `7xkk` ADD Vx, kk: modulo 256, no flag (40 R101) -/
def execAddImm (x : Nibble) (kk : Byte) (s : State) : Result := .next (s.setReg x (s.reg x + kk))

/-- `8xy0` LD Vx, Vy (40 R102) -/
def execLdReg (x y : Nibble) (s : State) : Result := .next (s.setReg x (s.reg y))

/-- `8xy1` OR Vx, Vy: VF unchanged (40 R103) -/
def execOrReg (x y : Nibble) (s : State) : Result := .next (s.setReg x (s.reg x ||| s.reg y))

/-- `8xy2` AND Vx, Vy: VF unchanged (40 R104) -/
def execAndReg (x y : Nibble) (s : State) : Result := .next (s.setReg x (s.reg x &&& s.reg y))

/-- `8xy3` XOR Vx, Vy: VF unchanged (40 R105) -/
def execXorReg (x y : Nibble) (s : State) : Result := .next (s.setReg x (s.reg x ^^^ s.reg y))

/-- `8xy4` ADD Vx, Vy: VF = carry (40 R106) -/
def execAddReg (x y : Nibble) (s : State) : Result :=
  .next (s.setFlagged x (carryOut (s.reg x) (s.reg y)) (s.reg x + s.reg y))

/-- `8xy5` SUB Vx, Vy: VF = not borrow (40 R107) -/
def execSubReg (x y : Nibble) (s : State) : Result :=
  .next (s.setFlagged x (notBorrow (s.reg x) (s.reg y)) (s.reg x - s.reg y))

/-- `8xy6` SHR Vx: VF = old bit 0; `y` is ignored (40 R108) -/
def execShr (x _y : Nibble) (s : State) : Result :=
  .next (s.setFlagged x (shrOut (s.reg x)) (s.reg x >>> 1))

/-- `8xy7` SUBN Vx, Vy: Vy - Vx, VF = not borrow (40 R109) -/
def execSubnReg (x y : Nibble) (s : State) : Result :=
  .next (s.setFlagged x (notBorrow (s.reg y) (s.reg x)) (s.reg y - s.reg x))

/-- `8xyE` SHL Vx: VF = old bit 7; `y` is ignored (40 R110) -/
def execShl (x _y : Nibble) (s : State) : Result :=
  .next (s.setFlagged x (shlOut (s.reg x)) (s.reg x <<< 1))

/-- `Cxkk` RND Vx, kk: a fresh free byte AND kk (40 R112) -/
def execRnd (x : Nibble) (kk : Byte) (s : State) : Result :=
  .next (s.nextDraw.setReg x (Config.rand s.draws &&& kk))

end Sys2Proof.Machine
end

