-- ==== Sys2Proof/Machine/Control.lean ====
section
/-!
DEFINITION. The meanings of 41_control_flow.md: jumps, call and return, compare and skip. Each is called on the state after
fetch, pc = A + 2 (10_state.md R26).
-/

namespace Sys2Proof.Machine

/-- `1nnn` JP nnn (41 R120) -/
def execJp (nnn : Addr) (s : State) : Result := .next (s.setPc (absAddr nnn))

/-- `2nnn` CALL nnn: pushes the post-fetch pc; StackOverflow when sixteen calls are live (41 R121, 60 R212) -/
def execCall (nnn : Addr) (s : State) : Result :=
  match s.push s.pc with
  | some t => .next (t.setPc (absAddr nnn))
  | none => s.raise .stackOverflow (.call nnn)

/-- `00EE` RET: StackUnderflow when the stack is empty (41 R122, 60 R213) -/
def execRet (s : State) : Result :=
  match s.popPc with
  | some t => .next t
  | none => s.raise .stackUnderflow .ret

/-- `Bnnn` JP V0, nnn: a 16-bit sum, not reduced to 12 bits (41 R123) -/
def execJpV0 (nnn : Addr) (s : State) : Result := .next (s.setPc (absAddr nnn + zext16 (s.reg 0x0#4)))

/-- `3xkk` SE Vx, kk (41 R124) -/
def execSeImm (x : Nibble) (kk : Byte) (s : State) : Result := .next (s.skipIf (s.reg x == kk))

/-- `4xkk` SNE Vx, kk (41 R125) -/
def execSneImm (x : Nibble) (kk : Byte) (s : State) : Result := .next (s.skipIf (s.reg x != kk))

/-- `5xy0` SE Vx, Vy (41 R126) -/
def execSeReg (x y : Nibble) (s : State) : Result := .next (s.skipIf (s.reg x == s.reg y))

/-- `9xy0` SNE Vx, Vy (41 R127) -/
def execSneReg (x y : Nibble) (s : State) : Result := .next (s.skipIf (s.reg x != s.reg y))

end Sys2Proof.Machine
end

