-- ==== Sys2Proof/Machine/Display.lean ====
section
/-!
DEFINITION. The meanings of 43_display.md: clear, and the XOR sprite blitter with its collision detector. Each is called on
the state after fetch, pc = A + 2 (10_state.md R26).
-/

namespace Sys2Proof.Machine

/-- A framebuffer and the collision bit `c` accumulated so far (43 R161). -/
structure Blit where
  fb : BitVec 2048
  hit : Bool
  deriving DecidableEq, Repr

/-- One pixel at column `px`, row `py`, both wrapped: XOR, and a collision when an on cell meets a 1 (43 R161, R163). -/
def blitPixel (p : Blit) (px py : Nat) (bit : Bool) : Blit :=
  { fb := fbXor p.fb (px % 64) (py % 32) bit, hit := p.hit || (bit && fbCell p.fb (px % 64) (py % 32)) }

/-- The first `count` pixels of one sprite row: bit 7 is the leftmost (43 R161, R162 a). -/
def blitCols (p : Blit) (xo py : Nat) (sprite : Byte) : Nat → Blit
  | 0 => p
  | col + 1 => blitPixel (blitCols p xo py sprite col) (xo + col) py (sprite.getLsbD (7 - col))

/-- The first `count` rows of the sprite at `base` (43 R161). -/
def blitRows (m : Memory) (base xo yo : Nat) (p : Blit) : Nat → Blit
  | 0 => p
  | row + 1 => blitCols (blitRows m base xo yo p row) xo (yo + row) (m.read (base + row)) 8

/-- `00E0` CLS (43 R160) -/
def execCls (s : State) : Result := .next (s.setDisplay 0#2048)

/-- The blit of a sprite of `n` rows at the registers' origins, all operands read first (43 R161). -/
def State.blit (s : State) (x y n : Nibble) : Blit :=
  blitRows s.mem (effAddr s.i 0) (s.reg x).toNat (s.reg y).toNat { fb := s.fb, hit := false } n.toNat

/-- `Dxyn` DRW Vx, Vy, n: VF ends as the collision (43 R161 to R163) -/
def execDrw (x y n : Nibble) (s : State) : Result :=
  if extentFits s.i n.toNat then
    .next ((s.setDisplay (s.blit x y n).fb).setReg regF (flagByte (s.blit x y n).hit))
  else s.raise .addressOutOfRange (.drw x y n)

end Sys2Proof.Machine
end

