-- ==== Sys2Proof/Machine/IndexMemory.lean ====
section
/-!
DEFINITION. The meanings of 42_index_memory.md: the index register, BCD, range store and range load. Each is called on the
state after fetch, pc = A + 2 (10_state.md R26); the range check precedes the first write (20_memory.md R54).
-/

namespace Sys2Proof.Machine

/-- `Annn` LD I, nnn (42 R140) -/
def execLdIndex (nnn : Addr) (s : State) : Result := .next (s.setIndex (absAddr nnn))

/-- `Fx1E` ADD I, Vx: modulo 65536, no flag (42 R141) -/
def execAddIndex (x : Nibble) (s : State) : Result := .next (s.setIndex (s.i + zext16 (s.reg x)))

/-- `Fx29` LD F, Vx: the address of the glyph the low nibble names (42 R142) -/
def execLdFont (x : Nibble) (s : State) : Result := .next (s.setIndex (glyphAddr (lowNibble (s.reg x))))

/-- `Fx33` LD B, Vx: three decimal digits at I, I + 1, I + 2; I unchanged (42 R143) -/
def execStoreBcd (x : Nibble) (s : State) : Result :=
  if extentFits s.i 3 then .next (s.setMem (s.mem.writeBytes (effAddr s.i 0) (bcdDigits (s.reg x))))
  else s.raise .addressOutOfRange (.storeBcd x)

/-- `Fx55` LD [I], Vx: V0..Vx at I.., then I advances by x + 1 (42 R144) -/
def execStoreRegs (x : Nibble) (s : State) : Result :=
  if extentFits s.i (x.toNat + 1) then
    .next ((s.setMem (s.mem.writeBytes (effAddr s.i 0) (s.firstRegs (x.toNat + 1)))).setIndex
      (s.i + BitVec.ofNat 16 (x.toNat + 1)))
  else s.raise .addressOutOfRange (.storeRegs x)

/-- `Fx65` LD Vx, [I]: V0..Vx from I.., then I advances by x + 1 (42 R145) -/
def execLoadRegs (x : Nibble) (s : State) : Result :=
  if extentFits s.i (x.toNat + 1) then
    .next ((s.loadFirst (effAddr s.i 0) (x.toNat + 1)).setIndex (s.i + BitVec.ofNat 16 (x.toNat + 1)))
  else s.raise .addressOutOfRange (.loadRegs x)

end Sys2Proof.Machine
end

