-- ==== Sys2Proof/Machine/TimersKeys.lean ====
section
/-!
DEFINITION. The meanings of 44_timers_keys.md: timer moves, key skips, wait for key. Each is called on the state after fetch,
pc = A + 2 (10_state.md R26); none of them can fault.
-/

namespace Sys2Proof.Machine

/-- `Fx07` LD Vx, DT (44 R170) -/
def execReadDelay (x : Nibble) (s : State) : Result := .next (s.setReg x s.dt)

/-- `Fx15` LD DT, Vx (44 R171) -/
def execSetDelay (x : Nibble) (s : State) : Result := .next (s.setDT (s.reg x))

/-- `Fx18` LD ST, Vx (44 R172) -/
def execSetSound (x : Nibble) (s : State) : Result := .next (s.setST (s.reg x))

/-- `Ex9E` SKP Vx: skip while the key the low nibble names is held (44 R173, R176) -/
def execSkp (x : Nibble) (s : State) : Result := .next (s.skipIf (s.key (lowNibble (s.reg x))))

/-- `ExA1` SKNP Vx: skip while it is not held (44 R174, R176) -/
def execSknp (x : Nibble) (s : State) : Result := .next (s.skipIf (!s.key (lowNibble (s.reg x))))

/-- `Fx0A` LD Vx, K: `run <- WaitingForKey(x)`, and that is all the step does (44 R175) -/
def execWaitKey (x : Nibble) (s : State) : Result := .next (s.setRun (.waitingForKey x))

end Sys2Proof.Machine
end

