-- ==== Sys2Proof/Machine/Fetch.lean ====
section
/-!
DEFINITION. Fetch (20_memory.md R55, 45_host_commands.md R192): when a step does nothing, the range check, the big-endian
word, the advance of pc, the two faults a step itself raises, and the placing of a word where the next step fetches.
-/

namespace Sys2Proof.Machine

/-- A faulted engine and a waiting engine do nothing in a step (45 R192, R200; 44 R175). -/
def State.idle (s : State) : Bool :=
  s.fault.isSome || (match s.run with | .running => false | .waitingForKey _ => true)

/-- Both bytes of the instruction lie in 0x000 to 0xFFF: `pc <= 0xFFE` (20 R55). -/
def State.fetchable (s : State) : Bool := decide (s.pc.toNat ≤ 0xFFE)

/-- `w <- mem[pc] ++ mem[pc + 1]`, big-endian, any parity (20 R55 to R57). -/
def State.fetchWord (s : State) : Word := wordOfBytes (s.byteAt s.pc.toNat) (s.byteAt (s.pc.toNat + 1))

/-- `pc <- pc + 2`, before execution effects (20 R55, 10 R26). -/
def State.advance (s : State) : State := s.setPc (s.pc + 2#16)

/-- PcOutOfRange: no opcode, pc not advanced (60 R214). -/
def State.pcFault (s : State) : State := s.latch { kind := .pcOutOfRange, opcode := none, address := s.pc }

/-- UnknownOpcode: raised at decode, after fetch has advanced pc (60 R211). -/
def State.unknownFault (s : State) (w : Word) : State :=
  s.advance.latch { kind := .unknownOpcode, opcode := some w, address := s.pc }

/-- The state with the word's two bytes at pc and pc + 1, no fault latched and no key wait, so that the next step fetches it
(log entry 7). -/
def State.placeWord (s : State) (w : Word) : State :=
  { s with
    mem := (s.mem.write s.pc.toNat (firstByte w)).write (s.pc.toNat + 1) (secondByte w)
    run := .running
    fault := none }

end Sys2Proof.Machine
end

