-- ==== Sys2Proof/Machine/Step.lean ====
section
/-!
DEFINITION. The `step` command: one fetch-decode-execute cycle (45_host_commands.md R192). What `step` returns to the host,
`redraw_pending` after the step (45 R203), is the field `redrawPending` of the next state (log entry 10).
-/

namespace Sys2Proof.Machine

/-- `step()` (45 R192): nothing when faulted or waiting; else fetch, decode, execute, the first failing stage latching its
fault (60 R218). -/
def step (s : State) : Host.Outcome State Fault Refusal :=
  if s.idle then .next s
  else if s.fetchable then
    match decode s.fetchWord with
    | .instr i => exec i s.advance
    | .unknown w => .next (s.unknownFault w)
  else .next s.pcFault

/-- The state whose next step fetches and runs the instruction with table bits `w`. -/
def State.withFetchWord (s : State) (nbits w : Nat) : State := s.placeWord (tableWord nbits w)

end Sys2Proof.Machine
end

