-- ==== Sys2Proof/Machine/Commands.lean ====
section
/-!
DEFINITION. The host's seven commands (45_host_commands.md R190), each one atomic transition. The host is a second agent:
any sequence of commands is possible (45 R199), and `runCommand` is one of its moves (log entry 9). The parameter FONT is an
argument of that relation (10_state.md R34).
-/

namespace Sys2Proof.Machine

/-- The seven commands and their arguments (45 R190). `k` is a 4-bit port (45 R194). -/
inductive Command where
  | initializeAt (start : Word)
  | loadProgram (bytes : List Byte)
  | setKey (k : Nibble) (pressed : Bool)
  | step
  | tickTimers
  | display
  | clearRedraw
  deriving DecidableEq, Repr

/-- What a command answers (45 R190). -/
inductive Reply where
  /-- initialize, set_key and clear_redraw answer nothing -/
  | done
  /-- load_program: the program fits -/
  | accepted
  /-- load_program: ProgramTooLarge, not latched (60 R217) -/
  | programTooLarge
  /-- step: redraw_pending after the step (45 R203) -/
  | redraw (pending : Bool)
  /-- tick_timers: tone_stop (45 R196) -/
  | toneStop (pulse : Bool)
  /-- display: the 64×32 grid, cell y*64 + x is bit y*64 + x (45 R197) -/
  | grid (fb : BitVec 2048)
  deriving DecidableEq, Repr

/-- The largest program: 4096 - 512 bytes (00 R6, 45 R193). -/
def maxProgram : Nat := 3584

/-- Where a program is loaded, whatever the start address (45 R191, R193). -/
def loadAddress : Nat := 0x200

/-- `initialize(start_address)` of the engine with the table `font`: accepted in every state, a faulted and a waiting one
included (45 R191). -/
def cmdInitialize (font : Font) (start : Word) (s : State) : State := s.initialized font start

/-- `load_program(bytes)` (45 R193): the size check is made and answered also while faulted, and nothing is copied then
(45 R200; log entry 11). -/
def cmdLoadProgram (bytes : List Byte) (s : State) : State × Reply :=
  if maxProgram < bytes.length then (s, .programTooLarge)
  else if s.fault.isSome then (s, .accepted)
  else (s.setMem (s.mem.writeBytes loadAddress bytes), .accepted)

/-- `set_key(k, pressed)` (45 R194): records the level; a press edge ends a key wait and writes the waiting register. -/
def cmdSetKey (k : Nibble) (pressed : Bool) (s : State) : State :=
  if s.fault.isSome then s
  else
    match s.run with
    | .running => s.setKeyState k pressed
    | .waitingForKey r =>
      if pressed && !s.key k then ((s.setKeyState k pressed).setReg r (k.setWidth 8)).setRun .running
      else s.setKeyState k pressed

/-- A timer counts down to a floor of 0 (45 R196). -/
def countDown (t : Byte) : Byte := if t = 0x00#8 then 0x00#8 else t - 0x01#8

/-- `tick_timers()` (45 R196): both timers, also during a key wait; the answer is `tone_stop`. -/
def cmdTickTimers (s : State) : State × Bool :=
  if s.fault.isSome then (s, false)
  else ((s.setDT (countDown s.dt)).setST (countDown s.st), s.st == 0x01#8)

/-- `display()` (45 R197): the grid, in every state; nothing changes. -/
def cmdDisplay (s : State) : BitVec 2048 := s.fb

/-- `clear_redraw()` (45 R198) -/
def cmdClearRedraw (s : State) : State := if s.fault.isSome then s else s.clearRedraw

/-- `ST` as the host may read it, to start a tone (45 R202). -/
def readSound (s : State) : Byte := s.st

/-- `step()` as a command: the next state and its redraw_pending (45 R192, R203). A step always answers a next state. -/
def cmdStep (s : State) : State × Reply :=
  match step s with
  | .next t => (t, .redraw t.redrawPending)
  | .fault _ => (s, .redraw s.redrawPending)
  | .refused _ => (s, .redraw s.redrawPending)

/-- One command to the engine with the table `font` (45 R190, 10 R34). -/
def runCommand (font : Font) (c : Command) (s : State) : State × Reply :=
  match c with
  | .initializeAt start => (cmdInitialize font start s, .done)
  | .loadProgram bytes => cmdLoadProgram bytes s
  | .setKey k pressed => (cmdSetKey k pressed s, .done)
  | .step => cmdStep s
  | .tickTimers => ((cmdTickTimers s).1, .toneStop (cmdTickTimers s).2)
  | .display => (s, .grid (cmdDisplay s))
  | .clearRedraw => (cmdClearRedraw s, .done)

end Sys2Proof.Machine
end

