-- ==== Sys2Proof/Safety.lean ====
section
/-!
DEFINITION. The terms claims are stated in: what part of the state a transition leaves alone, the three kinds of final state
(70_reset_and_hazards.md R249), the launch state and the states the host can reach (70 R241, R242), and the invariants.
-/

namespace Sys2Proof.Machine

/-- The elements of `State`, by name. -/
inductive Part where
  | mem | regs | index | pc | stack | sp | delay | sound | display | keys | run | redraw | fault | draws
  deriving DecidableEq, Repr

/-- The element is the same in both states. For memory: every byte reads the same; for the registers, the stack and the keys:
every entry. -/
def Part.same (s t : State) : Part → Prop
  | .mem => ∀ a, t.byteAt a = s.byteAt a
  | .regs => ∀ r, t.reg r = s.reg r
  | .index => t.i = s.i
  | .pc => t.pc = s.pc
  | .stack => ∀ k, t.stackSlot k = s.stackSlot k
  | .sp => t.sp = s.sp
  | .delay => t.dt = s.dt
  | .sound => t.st = s.st
  | .display => t.fb = s.fb
  | .keys => ∀ k, t.key k = s.key k
  | .run => t.run = s.run
  | .redraw => t.redrawPending = s.redrawPending
  | .fault => t.fault = s.fault
  | .draws => t.draws = s.draws

/-- Frame: every element but those listed is the same in `t` as in `s`. -/
def SameBut (changed : List Part) (s t : State) : Prop := ∀ p, p ∉ changed → p.same s t

/-- Frame: every register but `x` is the same. -/
def RegsSameBut (x : Nibble) (s t : State) : Prop := ∀ r, r ≠ x → t.reg r = s.reg r

/-- A safe run latches no fault: "a faulted state is never a successful end of a run" (60 R216). -/
def State.safe (s : State) : Prop := s.fault = none

/-- Faulted (70 R249, kind 1). -/
def State.faulted (s : State) : Prop := s.fault ≠ none

/-- Parked (70 R249, kind 2): no fault, running, and the word at pc is a jump to itself. -/
def State.parked (s : State) : Prop :=
  s.fault = none ∧ s.run = .running ∧ s.fetchable = true ∧
    ∃ nnn : Addr, decode s.fetchWord = .instr (.jp nnn) ∧ absAddr nnn = s.pc

/-- Waiting (70 R249, kind 3). -/
def State.waiting (s : State) : Prop := ∃ r, s.run = .waitingForKey r

/-- The launch state of 70 R242: `initialize(0x200)`, then `load_program(bytes)`. -/
def State.launch (font : Font) (bytes : List Byte) : State :=
  (cmdLoadProgram bytes (cmdInitialize font Config.startAddress State.reset)).1

/-- The states the host can reach in the engine with the table `font`: from the state after `initialize`, at any start
address, by any commands (45 R199, 70 R241). -/
inductive Reachable (font : Font) : State → Prop where
  | initialized (start : Word) : Reachable font (State.reset.initialized font start)
  | command (c : Command) (s : State) : Reachable font s → Reachable font (runCommand font c s).1

/-- The number of bytes from `I` on that an instruction of the data-access group touches (20 R54). -/
def dataExtent : Instr → Option Nat
  | .drw _ _ n => some n.toNat
  | .storeBcd _ => some 3
  | .storeRegs x => some (x.toNat + 1)
  | .loadRegs x => some (x.toNat + 1)
  | .cls | .ret | .jp _ | .call _ | .seImm _ _ | .sneImm _ _ | .seReg _ _ | .ldImm _ _ | .addImm _ _ => none
  | .ldReg _ _ | .orReg _ _ | .andReg _ _ | .xorReg _ _ | .addReg _ _ | .subReg _ _ | .shr _ _ => none
  | .subnReg _ _ | .shl _ _ | .sneReg _ _ | .ldIndex _ | .jpV0 _ | .rnd _ _ | .skp _ | .sknp _ => none
  | .readDelay _ | .waitKey _ | .setDelay _ | .setSound _ | .addIndex _ | .ldFont _ => none

/-- The elements an instruction may write, by 10 R38; every other element is left alone, whatever its operands. A form that
can fault writes `fault` instead of the rest. -/
def writes : Instr → List Part
  | .cls => [.display, .redraw]
  | .drw _ _ _ => [.display, .redraw, .regs, .fault]
  | .ret => [.pc, .sp, .fault]
  | .call _ => [.pc, .stack, .sp, .fault]
  | .jp _ | .jpV0 _ | .seImm _ _ | .sneImm _ _ | .seReg _ _ | .sneReg _ _ | .skp _ | .sknp _ => [.pc]
  | .ldImm _ _ | .addImm _ _ | .ldReg _ _ | .orReg _ _ | .andReg _ _ | .xorReg _ _ | .addReg _ _ => [.regs]
  | .subReg _ _ | .shr _ _ | .subnReg _ _ | .shl _ _ | .readDelay _ => [.regs]
  | .rnd _ _ => [.regs, .draws]
  | .ldIndex _ | .addIndex _ | .ldFont _ => [.index]
  | .storeBcd _ => [.mem, .fault]
  | .storeRegs _ => [.mem, .index, .fault]
  | .loadRegs _ => [.regs, .index, .fault]
  | .waitKey _ => [.run]
  | .setDelay _ => [.delay]
  | .setSound _ => [.sound]

/-- The registers an instruction may write: its destination, and VF for the six instructions that write it as a flag
(10 R22), and no other. -/
def writesReg (r : Nibble) : Instr → Bool
  | .ldImm x _ | .addImm x _ | .rnd x _ => r == x
  | .ldReg x _ | .orReg x _ | .andReg x _ | .xorReg x _ => r == x
  | .addReg x _ | .subReg x _ | .shr x _ | .subnReg x _ | .shl x _ => r == x || r == regF
  | .drw _ _ _ => r == regF
  | .readDelay x => r == x
  | .loadRegs x => decide (r.toNat ≤ x.toNat)
  | .cls | .ret | .jp _ | .call _ | .jpV0 _ | .seImm _ _ | .sneImm _ _ | .seReg _ _ | .sneReg _ _ => false
  | .ldIndex _ | .addIndex _ | .ldFont _ | .storeBcd _ | .storeRegs _ | .skp _ | .sknp _ => false
  | .waitKey _ | .setDelay _ | .setSound _ => false

/-- The evidence a latched record must carry, kind by kind (60 R211 to R216): what was wrong is still visible in the stopped
state, and pc stands where the rule says. -/
def FaultEvidence (s : State) (r : FaultRecord) : Prop :=
  match r.kind with
  | .pcOutOfRange => r.opcode = none ∧ r.address = s.pc ∧ 0xFFE < s.pc.toNat
  | .unknownOpcode => (∃ w, r.opcode = some w ∧ legalWord w = false) ∧ s.pc = r.address + 2#16 ∧ r.address.toNat ≤ 0xFFE
  | .stackOverflow =>
    (∃ nnn : Addr, r.opcode = some (0x2#4 ++ nnn)) ∧ s.sp.val = 16 ∧ s.pc = r.address + 2#16 ∧ r.address.toNat ≤ 0xFFE
  | .stackUnderflow => r.opcode = some 0x00EE#16 ∧ s.sp.val = 0 ∧ s.pc = r.address + 2#16 ∧ r.address.toNat ≤ 0xFFE
  | .addressOutOfRange =>
    (∃ i len, r.opcode = some (encode i) ∧ dataExtent i = some len ∧ 1 ≤ len ∧ 0xFFF < s.i.toNat + len - 1) ∧
      s.pc = r.address + 2#16 ∧ r.address.toNat ≤ 0xFFE

/-- Invariant: a latched fault is what its record says. -/
def FaultsAreEvidenced (s : State) : Prop := ∀ r, s.fault = some r → FaultEvidence s r

/-- Invariant: memory is in the model's canonical form (log entry 14) and lists no address above 0xFFF (10 R37). -/
def MemoryCanonical (s : State) : Prop := s.mem.wf = true

end Sys2Proof.Machine
end

