-- ==== Sys2Proof/Certificates/Slice0/Obligations.lean ====
section
/-!
DEFINITION. The statements for the provers, from the numbered rules of spec/. In the statements about one instruction `s` is
the state after fetch, so `s.pc = A + 2` (10_state.md R26); in the statements about a step `s` is the state before fetch, so
`s.pc = A`.
-/

open Sys2Proof Sys2Proof.Machine

/-! ## Encoding (30_encoding.md) -/

/-- Decoding an encoded instruction gives it back, for every instruction and every operand value (30 R71 to R76). -/
def Obligations.DecodeOfEncode : Prop := ∀ i : Instr, decode (encode i) = .instr i

/-- Each legal word has one meaning: encoding what a word decodes to gives the word back, the ignored `y` of the shifts
included (30 R71 to R76, 40 R108). -/
def Obligations.EncodeOfDecode : Prop := ∀ (w : Word) (i : Instr), decode w = .instr i → encode i = w

/-- 30 R75: a word decodes to the unique row with `w & mask = match`, and to Unknown exactly when no row matches. The
disjointness of the rows is the spec's own derivation ("the 34 patterns of rule R76 are pairwise disjoint"). -/
def Obligations.DecodeAgreesWithMap : Prop :=
  ∀ w : Word,
    (∀ i, decode w = .instr i → rowOf i ∈ opcodeTable ∧ (rowOf i).matchesWord w = true ∧
      ∀ r ∈ opcodeTable, r.matchesWord w = true → r = rowOf i) ∧
    (decode w = .unknown w ↔ ∀ r ∈ opcodeTable, r.matchesWord w = false) ∧
    (∀ u, decode w = .unknown u → u = w)

/-- 30 R78, R79: the words that decode to nothing are exactly the listed ones (`legalWord` is that list, written from R78).
Strict decoding of the unused nibbles and of `0nnn` is the spec's own decision (92 D2, D3). -/
def Obligations.IllegalWordsAreTheListedOnes : Prop :=
  ∀ w : Word, decode w = .unknown w ↔ legalWord w = false

/-- Words of 30 R77 and of the tables of 95_test_vectors.md decode to the instructions they stand for. -/
def Obligations.SpecWordsDecode : Prop :=
  decode 0x6005#16 = .instr (.ldImm 0x0#4 0x05#8) ∧ decode 0x7003#16 = .instr (.addImm 0x0#4 0x03#8) ∧
  decode 0x80A6#16 = .instr (.shr 0x0#4 0xA#4) ∧ decode 0x2300#16 = .instr (.call 0x300#12) ∧
  decode 0x00EE#16 = .instr .ret ∧ decode 0xF333#16 = .instr (.storeBcd 0x3#4) ∧
  decode 0xF265#16 = .instr (.loadRegs 0x2#4) ∧ decode 0xD125#16 = .instr (.drw 0x1#4 0x2#4 0x5#4) ∧
  decode 0xF30A#16 = .instr (.waitKey 0x3#4) ∧ decode 0xE19E#16 = .instr (.skp 0x1#4) ∧
  decode 0x0000#16 = .unknown 0x0000#16 ∧ decode 0x5121#16 = .unknown 0x5121#16

/-! ## The step cycle (45_host_commands.md, 20_memory.md, 60_exceptions.md) -/

/-- 45 R192, 20 R55: a step of a running engine without a fault, with pc at most 0xFFE, whose two bytes at pc, the first the
high byte, decode to `i`, is `exec i` on the state with pc advanced by 2, and with nothing else around it. -/
def Obligations.StepRunsDecodedInstruction : Prop :=
  ∀ (s : State) (i : Instr), s.fault = none → s.run = .running → s.pc.toNat ≤ 0xFFE →
    decode (s.byteAt s.pc.toNat ++ s.byteAt (s.pc.toNat + 1)) = .instr i →
      step s = exec i { s with pc := s.pc + 2#16 }

/-- 45 R192, R200, 44 R175: a step of a faulted or of a waiting engine changes nothing. That a faulted engine stays as it is
is the spec's own decision (92 D12). -/
def Obligations.StepIdleChangesNothing : Prop :=
  ∀ s : State, (s.fault ≠ none ∨ ∃ r, s.run = .waitingForKey r) → step s = .next s

/-- 60 R214: a fetch with pc above 0xFFE latches PcOutOfRange with no opcode, does not advance pc and changes nothing else.
Bound, name and pc are the spec's own decision (92 D11). -/
def Obligations.StepPcOutOfRange : Prop :=
  ∀ s : State, s.fault = none → s.run = .running → 0xFFE < s.pc.toNat →
    ∃ t, step s = .next t ∧ t.fault = some { kind := .pcOutOfRange, opcode := none, address := s.pc } ∧
      SameBut [.fault] s t

/-- 60 R211: any illegal word latches `(UnknownOpcode, w, A)` with pc = A + 2, and no other state changes. Which words are
illegal is in part the spec's own decision (92 D2, D3). -/
def Obligations.StepUnknownOpcode : Prop :=
  ∀ s : State, s.fault = none → s.run = .running → s.pc.toNat ≤ 0xFFE → legalWord s.fetchWord = false →
    ∃ t, step s = .next t ∧
      t.fault = some { kind := .unknownOpcode, opcode := some s.fetchWord, address := s.pc } ∧
      t.pc = s.pc + 2#16 ∧ SameBut [.pc, .fault] s t

/-- Nothing stops the model: every instruction in every state, and every step, answers a next state (the faults of the spec
are latched, 60 R216). -/
def Obligations.EveryStepAnswersNext : Prop :=
  (∀ (i : Instr) (s : State), ∃ t, exec i s = .next t) ∧ ∀ s : State, ∃ t, step s = .next t

/-- 20 R53, R55, R61: a word written at pc is what the next step fetches and runs, with no further action. -/
def Obligations.PlacedWordRuns : Prop :=
  ∀ (s : State) (w : Word) (i : Instr), s.pc.toNat ≤ 0xFFE → decodeTableWord 16 w.toNat = some i →
    step (s.withFetchWord 16 w.toNat) = exec i (s.withFetchWord 16 w.toNat).advance

/-! ## State, reset and invariants (10_state.md) -/

/-- 10 R35, 45 R191: what initialize leaves, element by element, from any state, for every table FONT and every start
address. That initialize zeroes every element, all of memory included, is the spec's own decision (92 D25). -/
def Obligations.InitializeGivesResetValues : Prop :=
  ∀ (font : Font) (s : State) (start : Word), ∃ t, (runCommand font (.initializeAt start) s).1 = t ∧
    (∀ a (h : a < 0x50), t.byteAt a = font[a]) ∧ (∀ a, 0x50 ≤ a → t.byteAt a = 0x00#8) ∧
    (∀ r, t.reg r = 0x00#8) ∧ t.i = 0x0000#16 ∧ t.pc = start ∧ (∀ k, t.stackSlot k = 0x0000#16) ∧ t.sp.val = 0 ∧
    t.dt = 0x00#8 ∧ t.st = 0x00#8 ∧ (∀ x y, fbCell t.fb x y = false) ∧ (∀ k, t.key k = false) ∧ t.run = .running ∧
    t.redrawPending = false ∧ t.fault = none

/-- Equal memories are equal data: two memories in canonical form that read alike at every address of the engine are the same
list. The canonical form is the model's (log entry 14); the addresses of memory are 10 R23 and 20 R50. -/
def Obligations.CanonicalMemoriesAreEqualData : Prop :=
  ∀ m m' : Memory, m.wf = true → m'.wf = true → (∀ a, a ≤ 0xFFF → m.read a = m'.read a) → m = m'

/-- Invariant of every step, from any state that meets it: memory stays in canonical form. The form (a rising list, no entry
equal to what an unlisted address reads as) is the model's choice (log entry 14); its bound, no address above 0xFFF, is 10 R37:
"`mem[a]` exists exactly for 0 <= a <= 0xFFF". -/
def Obligations.StepKeepsMemoryCanonical : Prop :=
  ∀ s t : State, MemoryCanonical s → step s = .next t → MemoryCanonical t

/-- Invariant of every step, from any state that meets it: a latched fault is what its record says, so that the kind, the
word, the address and pc agree with the stopped state (60 R211 to R216). -/
def Obligations.StepKeepsFaultEvidence : Prop :=
  ∀ s t : State, FaultsAreEvidenced s → step s = .next t → FaultsAreEvidenced t

/-- Both invariants hold at reset: memory lists nothing, which is canonical in the model's form (log entry 14), and no fault is
latched (10 R35). The state is the model's `State.reset`, at the defaults of FONT and START_ADDRESS (log entries 1 and 2). -/
def Obligations.ResetMeetsInvariants : Prop := MemoryCanonical State.reset ∧ FaultsAreEvidenced State.reset

/-- Both invariants hold in every state the host can reach, with any FONT and start address, by any sequence of commands: the
canonical form is the model's (log entry 14), the fault evidence is 60 R211 to R216, the free sequence is log entry 9. -/
def Obligations.ReachableStatesMeetInvariants : Prop :=
  ∀ (font : Font) (s : State), Reachable font s → MemoryCanonical s ∧ FaultsAreEvidenced s

/-- 10 R38, 45 R201: whatever its operands, an instruction changes nothing but the elements `writes` lists for it: the timers
change only by `Fx15` and `Fx18`, `fb` only by `00E0` and `Dxyn`, the stack only by `2nnn` and `00EE`, `keys` by none. -/
def Obligations.InstructionsWriteOnlyTheirElements : Prop :=
  ∀ (i : Instr) (s t : State), exec i s = .next t → SameBut (writes i) s t

/-- 10 R22: whatever its operands, an instruction changes no register but its destination and, for the six flag writers, VF.
That the other instructions leave VF alone is the spec's own decision (92 D7). -/
def Obligations.InstructionsWriteOnlyTheirRegisters : Prop :=
  ∀ (i : Instr) (s t : State) (r : Nibble), exec i s = .next t → writesReg r i = false → t.reg r = s.reg r

/-- 60 R228: an instruction latches nothing, or a fault of the one kind it can raise. The record is `(kind, w, A)` of 60 R216;
that w is the instruction's encoding and A the post-fetch pc less 2, in every state, is the model's deduction (log entry 6). -/
def Obligations.EachInstructionRaisesOnlyItsFault : Prop :=
  ∀ (i : Instr) (s t : State), exec i s = .next t →
    t.fault = s.fault ∨ ∃ k, t.fault = some { kind := k, opcode := some (encode i), address := s.pc - 2#16 } ∧
      ((k = .stackOverflow ∧ ∃ nnn, i = .call nnn) ∨ (k = .stackUnderflow ∧ i = .ret) ∨
        (k = .addressOutOfRange ∧ ∃ len, dataExtent i = some len ∧ 1 ≤ len))

/-! ## ALU (40_alu.md) -/

/-- 40 R100: `6xkk` loads kk into Vx and changes nothing else. -/
def Obligations.LdImmLoads : Prop :=
  ∀ (x : Nibble) (kk : Byte) (s : State), decode (0x6#4 ++ x ++ kk) = .instr (.ldImm x kk) ∧
    ∃ t, exec (.ldImm x kk) s = .next t ∧ t.reg x = kk ∧ RegsSameBut x s t ∧ SameBut [.regs] s t

/-- 40 R101: `7xkk` adds modulo 256 and changes nothing else, VF included (no carry flag: the spec's own decision, 92 D7). -/
def Obligations.AddImmWraps : Prop :=
  ∀ (x : Nibble) (kk : Byte) (s : State), ∃ t, exec (.addImm x kk) s = .next t ∧
    (t.reg x).toNat = ((s.reg x).toNat + kk.toNat) % 256 ∧ RegsSameBut x s t ∧ SameBut [.regs] s t

/-- 40 R102: `8xy0` copies Vy into Vx and changes nothing else. -/
def Obligations.LdRegCopies : Prop :=
  ∀ (x y : Nibble) (s : State), decode (0x8#4 ++ x ++ y ++ 0x0#4) = .instr (.ldReg x y) ∧
    ∃ t, exec (.ldReg x y) s = .next t ∧ t.reg x = s.reg y ∧ RegsSameBut x s t ∧ SameBut [.regs] s t

/-- 40 R103, R104, R105: OR, AND and XOR, bit by bit, change Vx alone; VF stays (the spec's own decision, 92 D7). -/
def Obligations.BitwiseOperations : Prop :=
  ∀ (x y : Nibble) (s : State),
    (∃ t, exec (.orReg x y) s = .next t ∧
      (∀ k, (t.reg x).getLsbD k = ((s.reg x).getLsbD k || (s.reg y).getLsbD k)) ∧ RegsSameBut x s t ∧ SameBut [.regs] s t) ∧
    (∃ t, exec (.andReg x y) s = .next t ∧
      (∀ k, (t.reg x).getLsbD k = ((s.reg x).getLsbD k && (s.reg y).getLsbD k)) ∧ RegsSameBut x s t ∧ SameBut [.regs] s t) ∧
    (∃ t, exec (.xorReg x y) s = .next t ∧
      (∀ k, (t.reg x).getLsbD k = ((s.reg x).getLsbD k ^^ (s.reg y).getLsbD k)) ∧ RegsSameBut x s t ∧ SameBut [.regs] s t)

/-- 40 R106: `8xy4`: Vx ends as the sum modulo 256, also when x = 0xF; otherwise VF is 1 exactly when the sum exceeds 255.
That the sum wins over the flag when x = 0xF is the spec's own decision (92 D4). -/
def Obligations.AddRegSetsCarry : Prop :=
  ∀ (x y : Nibble) (s : State), decode (0x8#4 ++ x ++ y ++ 0x4#4) = .instr (.addReg x y) ∧
    ∃ t, exec (.addReg x y) s = .next t ∧
      (t.reg x).toNat = ((s.reg x).toNat + (s.reg y).toNat) % 256 ∧
      (x ≠ 0xF#4 → t.reg 0xF#4 = if 255 < (s.reg x).toNat + (s.reg y).toNat then 0x01#8 else 0x00#8) ∧
      (∀ r, r ≠ x → r ≠ 0xF#4 → t.reg r = s.reg r) ∧ SameBut [.regs] s t

/-- 40 R107: `8xy5`: Vx ends as Vx - Vy modulo 256, also when x = 0xF; otherwise VF is 1 exactly when Vx >= Vy. Equality
giving 1 and the result winning over the flag when x = 0xF are the spec's own decisions (92 D8, D4). -/
def Obligations.SubRegSetsNotBorrow : Prop :=
  ∀ (x y : Nibble) (s : State), ∃ t, exec (.subReg x y) s = .next t ∧
    (t.reg x).toNat = ((s.reg x).toNat + 256 - (s.reg y).toNat) % 256 ∧
    (x ≠ 0xF#4 → t.reg 0xF#4 = if (s.reg y).toNat ≤ (s.reg x).toNat then 0x01#8 else 0x00#8) ∧
    (∀ r, r ≠ x → r ≠ 0xF#4 → t.reg r = s.reg r) ∧ SameBut [.regs] s t

/-- 40 R109: `8xy7`: Vx ends as Vy - Vx modulo 256, also when x = 0xF; otherwise VF is 1 exactly when Vy >= Vx. Equality
giving 1 and the result winning over the flag when x = 0xF are the spec's own decisions (92 D8, D4). -/
def Obligations.SubnRegSetsNotBorrow : Prop :=
  ∀ (x y : Nibble) (s : State), decode (0x8#4 ++ x ++ y ++ 0x7#4) = .instr (.subnReg x y) ∧
    ∃ t, exec (.subnReg x y) s = .next t ∧
      (t.reg x).toNat = ((s.reg y).toNat + 256 - (s.reg x).toNat) % 256 ∧
      (x ≠ 0xF#4 → t.reg 0xF#4 = if (s.reg x).toNat ≤ (s.reg y).toNat then 0x01#8 else 0x00#8) ∧
      (∀ r, r ≠ x → r ≠ 0xF#4 → t.reg r = s.reg r) ∧ SameBut [.regs] s t

/-- 40 R108, R110: SHR halves Vx and SHL doubles it modulo 256, also when x = 0xF; otherwise VF is the old bit 0, or the old
bit 7. The field y is ignored, and the result wins over the flag when x = 0xF (the spec's own decisions, 92 D6, D4). -/
def Obligations.ShiftsMoveOneBit : Prop :=
  ∀ (x y : Nibble) (s : State),
    (∃ t, exec (.shr x y) s = .next t ∧ (t.reg x).toNat = (s.reg x).toNat / 2 ∧
      (x ≠ 0xF#4 → (t.reg 0xF#4).toNat = (s.reg x).toNat % 2) ∧
      (∀ r, r ≠ x → r ≠ 0xF#4 → t.reg r = s.reg r) ∧ SameBut [.regs] s t) ∧
    (∃ t, exec (.shl x y) s = .next t ∧ (t.reg x).toNat = 2 * (s.reg x).toNat % 256 ∧
      (x ≠ 0xF#4 → (t.reg 0xF#4).toNat = (s.reg x).toNat / 128) ∧
      (∀ r, r ≠ x → r ≠ 0xF#4 → t.reg r = s.reg r) ∧ SameBut [.regs] s t)

/-- 40 R112: `Cxkk` draws one byte, whichever it is, and leaves its AND with kk in Vx, so that no bit outside kk is set; the
draw count moves on. The byte is the model's free value (log entry 3); the claim holds for every value of it. -/
def Obligations.RndMasksTheDraw : Prop :=
  ∀ (x : Nibble) (kk : Byte) (s : State), ∃ (r : Byte) (t : State), r = Config.rand s.draws ∧
    exec (.rnd x kk) s = .next t ∧ t.reg x = r &&& kk ∧ t.reg x &&& ~~~kk = 0x00#8 ∧ t.draws = s.draws + 1 ∧
    RegsSameBut x s t ∧ SameBut [.regs, .draws] s t

/-! ## Control transfer (41_control_flow.md) -/

/-- 41 R120: `1nnn` jumps to the absolute address, unchecked, and changes nothing else; with nnn = 0xFFF the next step of a
running engine raises PcOutOfRange; a jump to the instruction's own address A leaves pc = A. The bound behind
PcOutOfRange is the spec's own decision (92 D11). -/
def Obligations.JpJumps : Prop :=
  ∀ (nnn : Addr) (s : State), decode (0x1#4 ++ nnn) = .instr (.jp nnn) ∧
    ∃ t, exec (.jp nnn) s = .next t ∧ t.pc.toNat = nnn.toNat ∧ SameBut [.pc] s t ∧
      (nnn = 0xFFF#12 → s.fault = none → s.run = .running →
        ∃ u, step t = .next u ∧ u.fault = some { kind := .pcOutOfRange, opcode := none, address := 0x0FFF#16 }) ∧
      (nnn.toNat = (s.pc - 2#16).toNat → t.pc = s.pc - 2#16)

/-- 41 R123: `Bnnn` jumps to nnn + V0, not reduced to 12 bits (the spec's own decision, 92 D32), and changes nothing else. -/
def Obligations.JpV0AddsV0 : Prop :=
  ∀ (nnn : Addr) (s : State), ∃ t, exec (.jpV0 nnn) s = .next t ∧
    t.pc.toNat = nnn.toNat + (s.reg 0x0#4).toNat ∧ SameBut [.pc] s t

/-- 41 R121: with fewer than sixteen live entries `2nnn` stores the post-fetch pc in the next free slot, counts it and jumps;
no other slot and nothing else changes. The slot's place is the spec's own decision (92 D14). -/
def Obligations.CallPushesAndJumps : Prop :=
  ∀ (nnn : Addr) (s : State) (free : s.sp.val < 16), ∃ t, exec (.call nnn) s = .next t ∧
    t.stackSlot ⟨s.sp.val, free⟩ = s.pc ∧ (∀ k : Fin 16, k.val ≠ s.sp.val → t.stackSlot k = s.stackSlot k) ∧
    t.sp.val = s.sp.val + 1 ∧ t.pc.toNat = nnn.toNat ∧ SameBut [.stack, .sp, .pc] s t

/-- 41 R122: with a live entry `00EE` restores pc from the top entry and uncounts it; the slot keeps its value and nothing
else changes. The slot's place is the spec's own decision (92 D14). -/
def Obligations.RetPops : Prop :=
  ∀ (s : State) (k : Fin 16), s.sp.val = k.val + 1 → ∃ t, exec .ret s = .next t ∧
    t.pc = s.stackSlot k ∧ t.sp.val = k.val ∧ SameBut [.sp, .pc] s t

/-- 41 R122, 90 C7: a RET executed in any state that kept the stack of a completed CALL restores the pc the call saw and the
depth before it. -/
def Obligations.RetUndoesCall : Prop :=
  ∀ (nnn : Addr) (s t u : State), s.sp.val < 16 → exec (.call nnn) s = .next t → u.sp = t.sp → u.stack = t.stack →
    ∃ v, exec .ret u = .next v ∧ v.pc = s.pc ∧ v.sp = s.sp

/-- 60 R212: a step that fetches a CALL with sixteen live entries latches `(StackOverflow, w, A)`; nothing is pushed, the
jump is not taken, pc = A + 2; and no other instruction can latch this kind. -/
def Obligations.CallOverflowFaults : Prop :=
  (∀ (nnn : Addr) (s : State), s.fault = none → s.run = .running → s.pc.toNat ≤ 0xFFE →
    decode s.fetchWord = .instr (.call nnn) → s.sp.val = 16 → ∃ t, step s = .next t ∧
      t.fault = some { kind := .stackOverflow, opcode := some s.fetchWord, address := s.pc } ∧
      t.pc = s.pc + 2#16 ∧ SameBut [.pc, .fault] s t) ∧
  ∀ (i : Instr) (s t : State) (r : FaultRecord), s.fault = none → exec i s = .next t → t.fault = some r →
    r.kind = .stackOverflow → ∃ nnn, i = .call nnn

/-- 60 R213: a step that fetches a RET with an empty stack latches `(StackUnderflow, 0x00EE, A)`; sp stays 0, pc = A + 2; and
no other instruction can latch this kind. -/
def Obligations.RetUnderflowFaults : Prop :=
  (∀ s : State, s.fault = none → s.run = .running → s.pc.toNat ≤ 0xFFE →
    decode s.fetchWord = .instr .ret → s.sp.val = 0 → ∃ t, step s = .next t ∧
      t.fault = some { kind := .stackUnderflow, opcode := some 0x00EE#16, address := s.pc } ∧
      t.pc = s.pc + 2#16 ∧ SameBut [.pc, .fault] s t) ∧
  ∀ (i : Instr) (s t : State) (r : FaultRecord), s.fault = none → exec i s = .next t → t.fault = some r →
    r.kind = .stackUnderflow → i = .ret

/-- 41 R124, R125: `3xkk` skips exactly when Vx = kk and `4xkk` exactly when not; a skip adds 2 to the post-fetch pc; nothing
else changes. -/
def Obligations.SkipOnImmediate : Prop :=
  ∀ (x : Nibble) (kk : Byte) (s : State),
    (decode (0x3#4 ++ x ++ kk) = .instr (.seImm x kk) ∧ ∃ t, exec (.seImm x kk) s = .next t ∧
      t.pc = (if s.reg x = kk then s.pc + 2#16 else s.pc) ∧ SameBut [.pc] s t) ∧
    (decode (0x4#4 ++ x ++ kk) = .instr (.sneImm x kk) ∧ ∃ t, exec (.sneImm x kk) s = .next t ∧
      t.pc = (if s.reg x = kk then s.pc else s.pc + 2#16) ∧ SameBut [.pc] s t)

/-- 41 R126, R127: `5xy0` skips exactly when Vx = Vy and `9xy0` exactly when not; a skip adds 2 to the post-fetch pc; nothing
else changes. -/
def Obligations.SkipOnRegister : Prop :=
  ∀ (x y : Nibble) (s : State),
    (decode (0x5#4 ++ x ++ y ++ 0x0#4) = .instr (.seReg x y) ∧ ∃ t, exec (.seReg x y) s = .next t ∧
      t.pc = (if s.reg x = s.reg y then s.pc + 2#16 else s.pc) ∧ SameBut [.pc] s t) ∧
    (decode (0x9#4 ++ x ++ y ++ 0x0#4) = .instr (.sneReg x y) ∧ ∃ t, exec (.sneReg x y) s = .next t ∧
      t.pc = (if s.reg x = s.reg y then s.pc else s.pc + 2#16) ∧ SameBut [.pc] s t)

/-- 41 R120, 70 R249: a parked engine is a fixed point of `step`. The three kinds of final state are the spec's own decision
(92 D31). -/
def Obligations.ParkedIsAFixedPoint : Prop := ∀ s : State, s.parked → step s = .next s

/-! ## Index register and memory (42_index_memory.md) -/

/-- 42 R140: `Annn` sets I to the zero-extended address and changes nothing else. -/
def Obligations.LdIndexSetsI : Prop :=
  ∀ (nnn : Addr) (s : State), decode (0xA#4 ++ nnn) = .instr (.ldIndex nnn) ∧
    ∃ t, exec (.ldIndex nnn) s = .next t ∧ t.i.toNat = nnn.toNat ∧ SameBut [.index] s t

/-- 42 R141, R142: `Fx1E` adds Vx to I modulo 65536 with no flag (the spec's own decision, 92 D9), `Fx29` points I at the
glyph its low nibble names (92 D15); nothing else changes. -/
def Obligations.IndexArithmetic : Prop :=
  ∀ (x : Nibble) (s : State),
    (∃ t, exec (.addIndex x) s = .next t ∧ t.i.toNat = (s.i.toNat + (s.reg x).toNat) % 65536 ∧ SameBut [.index] s t) ∧
    (∃ t, exec (.ldFont x) s = .next t ∧ t.i.toNat = 5 * ((s.reg x).toNat % 16) ∧ SameBut [.index] s t)

/-- 42 R143: with I at most 0xFFD `Fx33` stores the hundreds, tens and units of Vx at I, I + 1 and I + 2 and changes nothing
else: no other byte, no register, not I. The digits' order is the spec's own decision (92 D16). -/
def Obligations.BcdStoresDigits : Prop :=
  ∀ (x : Nibble) (s : State), s.i.toNat + 2 ≤ 0xFFF → ∃ t, exec (.storeBcd x) s = .next t ∧
    (t.byteAt s.i.toNat).toNat = (s.reg x).toNat / 100 ∧
    (t.byteAt (s.i.toNat + 1)).toNat = (s.reg x).toNat / 10 % 10 ∧
    (t.byteAt (s.i.toNat + 2)).toNat = (s.reg x).toNat % 10 ∧
    (∀ a, (a < s.i.toNat ∨ s.i.toNat + 2 < a) → t.byteAt a = s.byteAt a) ∧ SameBut [.mem] s t

/-- 42 R144: `Fx55` stores V0 to Vx at I to I + x and advances I by x + 1, every other byte and element unchanged; when
I + x exceeds 0xFFF it raises AddressOutOfRange and writes nothing (the fault is the spec's own decision, 92 D10, D13). -/
def Obligations.StoreRegsStoresRange : Prop :=
  ∀ (x : Nibble) (s : State), decode (0xF#4 ++ x ++ 0x55#8) = .instr (.storeRegs x) ∧
    (s.i.toNat + x.toNat ≤ 0xFFF → ∃ t, exec (.storeRegs x) s = .next t ∧
      (∀ r : Nibble, r.toNat ≤ x.toNat → t.byteAt (s.i.toNat + r.toNat) = s.reg r) ∧
      (∀ a, (a < s.i.toNat ∨ s.i.toNat + x.toNat < a) → t.byteAt a = s.byteAt a) ∧
      t.i.toNat = s.i.toNat + x.toNat + 1 ∧ SameBut [.mem, .index] s t) ∧
    (0xFFF < s.i.toNat + x.toNat → ∃ t, exec (.storeRegs x) s = .next t ∧
      t.fault = some { kind := .addressOutOfRange, opcode := some (0xF#4 ++ x ++ 0x55#8), address := s.pc - 2#16 } ∧
      SameBut [.fault] s t)

/-- 42 R145: `Fx65` loads V0 to Vx from I to I + x and advances I by x + 1, every other register and element unchanged; when
I + x exceeds 0xFFF it raises AddressOutOfRange and writes nothing (the fault is the spec's own decision, 92 D10, D13). -/
def Obligations.LoadRegsLoadsRange : Prop :=
  ∀ (x : Nibble) (s : State), decode (0xF#4 ++ x ++ 0x65#8) = .instr (.loadRegs x) ∧
    (s.i.toNat + x.toNat ≤ 0xFFF → ∃ t, exec (.loadRegs x) s = .next t ∧
      (∀ r : Nibble, r.toNat ≤ x.toNat → t.reg r = s.byteAt (s.i.toNat + r.toNat)) ∧
      (∀ r : Nibble, x.toNat < r.toNat → t.reg r = s.reg r) ∧
      t.i.toNat = s.i.toNat + x.toNat + 1 ∧ SameBut [.regs, .index] s t) ∧
    (0xFFF < s.i.toNat + x.toNat → ∃ t, exec (.loadRegs x) s = .next t ∧
      t.fault = some { kind := .addressOutOfRange, opcode := some (0xF#4 ++ x ++ 0x65#8), address := s.pc - 2#16 } ∧
      SameBut [.fault] s t)

/-- 42 R144, R145: storing V0 to Vx and loading them back from the same place gives the registers back. -/
def Obligations.LoadUndoesStore : Prop :=
  ∀ (x : Nibble) (s t u : State), s.i.toNat + x.toNat ≤ 0xFFF → exec (.storeRegs x) s = .next t →
    (∀ a, u.byteAt a = t.byteAt a) → u.i = s.i →
      ∃ v, exec (.loadRegs x) u = .next v ∧ ∀ r : Nibble, r.toNat ≤ x.toNat → v.reg r = s.reg r

/-- 60 R215, 20 R54: a step that fetches `Dxyn`, `Fx33`, `Fx55` or `Fx65` whose extent from I passes 0xFFF latches
`(AddressOutOfRange, w, A)`, pc = A + 2, and writes nothing else. The fault and its extent are the spec's own decision
(92 D10). -/
def Obligations.DataAccessFaults : Prop :=
  ∀ (s : State) (i : Instr) (len : Nat), s.fault = none → s.run = .running → s.pc.toNat ≤ 0xFFE →
    decode s.fetchWord = .instr i → dataExtent i = some len → 1 ≤ len → 0xFFF < s.i.toNat + len - 1 →
    ∃ t, step s = .next t ∧
      t.fault = some { kind := .addressOutOfRange, opcode := some s.fetchWord, address := s.pc } ∧
      t.pc = s.pc + 2#16 ∧ SameBut [.pc, .fault] s t

/-! ## Display (43_display.md) -/

/-- 43 R160: `00E0` turns every cell off, sets redraw_pending and changes nothing else. -/
def Obligations.ClsClears : Prop :=
  decode 0x00E0#16 = .instr .cls ∧
  ∀ s : State, ∃ t, exec .cls s = .next t ∧ (∀ x y, x < 64 → y < 32 → fbCell t.fb x y = false) ∧
    t.redrawPending = true ∧ SameBut [.display, .redraw] s t

/-- 43 R161, R162, R163: `Dxyn` with its n bytes in range XORs bit 7 - col of the byte at I + row into the cell at
((Vx + col) mod 64, (Vy + row) mod 32), for row < n and col < 8; every other cell stays; VF ends as 1 exactly when a sprite bit
1 met a cell that was on, else 0; redraw_pending is set; nothing else changes. Origins, bit order and n = 0 are the spec's own
decisions (92 D5, D17). -/
def Obligations.DrwBlits : Prop :=
  ∀ (x y n : Nibble) (s : State), (1 ≤ n.toNat → s.i.toNat + n.toNat - 1 ≤ 0xFFF) →
    ∃ t, exec (.drw x y n) s = .next t ∧
      (∀ row col, row < n.toNat → col < 8 →
        fbCell t.fb (((s.reg x).toNat + col) % 64) (((s.reg y).toNat + row) % 32) =
          (fbCell s.fb (((s.reg x).toNat + col) % 64) (((s.reg y).toNat + row) % 32) ^^
            (s.byteAt (s.i.toNat + row)).getLsbD (7 - col))) ∧
      (∀ cx cy, cx < 64 → cy < 32 →
        (∀ row col, row < n.toNat → col < 8 →
          ¬ (cx = ((s.reg x).toNat + col) % 64 ∧ cy = ((s.reg y).toNat + row) % 32)) →
        fbCell t.fb cx cy = fbCell s.fb cx cy) ∧
      (t.reg 0xF#4 = 0x00#8 ∨ t.reg 0xF#4 = 0x01#8) ∧
      (t.reg 0xF#4 = 0x01#8 ↔ ∃ row col, row < n.toNat ∧ col < 8 ∧
        (s.byteAt (s.i.toNat + row)).getLsbD (7 - col) = true ∧
        fbCell s.fb (((s.reg x).toNat + col) % 64) (((s.reg y).toNat + row) % 32) = true) ∧
      t.redrawPending = true ∧ RegsSameBut 0xF#4 s t ∧ SameBut [.display, .redraw, .regs] s t

/-- 43 R163: the same sprite drawn twice at the same place restores the display, cell by cell, whatever it showed; on a
display that was clear the second draw ends with VF = 1 exactly when the sprite has a bit set. "The same place" is that the
first draw left the two origins as they were, as it does unless x or y is 0xF and VF changed. -/
def Obligations.DrawingTwiceRestores : Prop :=
  ∀ (x y n : Nibble) (s t u : State), (1 ≤ n.toNat → s.i.toNat + n.toNat - 1 ≤ 0xFFF) →
    exec (.drw x y n) s = .next t → t.reg x = s.reg x → t.reg y = s.reg y → exec (.drw x y n) t = .next u →
      (∀ cx cy, cx < 64 → cy < 32 → fbCell u.fb cx cy = fbCell s.fb cx cy) ∧
      ((∀ cx cy, cx < 64 → cy < 32 → fbCell s.fb cx cy = false) →
        (u.reg 0xF#4 = 0x01#8 ↔ ∃ row, row < n.toNat ∧ s.byteAt (s.i.toNat + row) ≠ 0x00#8))

/-! ## Timers and keys (44_timers_keys.md) -/

/-- 44 R170, R171: `Fx07` copies DT into Vx and `Fx15` copies Vx into DT, and nothing else changes. -/
def Obligations.DelayTimerMoves : Prop :=
  ∀ (x : Nibble) (s : State),
    (decode (0xF#4 ++ x ++ 0x07#8) = .instr (.readDelay x) ∧ ∃ t, exec (.readDelay x) s = .next t ∧
      t.reg x = s.dt ∧ RegsSameBut x s t ∧ SameBut [.regs] s t) ∧
    (decode (0xF#4 ++ x ++ 0x15#8) = .instr (.setDelay x) ∧ ∃ t, exec (.setDelay x) s = .next t ∧
      t.dt = s.reg x ∧ SameBut [.delay] s t)

/-- 44 R172: `Fx18` copies Vx into ST and changes nothing else. -/
def Obligations.SoundTimerSet : Prop :=
  ∀ (x : Nibble) (s : State), ∃ t, exec (.setSound x) s = .next t ∧ t.st = s.reg x ∧ SameBut [.sound] s t

/-- 44 R173, R174, R176: `Ex9E` skips exactly when the key that the low nibble of Vx names is held, `ExA1` exactly when it is
not; nothing else changes. The low nibble is the spec's own decision (92 D15). -/
def Obligations.KeySkips : Prop :=
  ∀ (x k : Nibble) (s : State), k.toNat = (s.reg x).toNat % 16 →
    (∃ t, exec (.skp x) s = .next t ∧ t.pc = (if s.key k = true then s.pc + 2#16 else s.pc) ∧ SameBut [.pc] s t) ∧
    (∃ t, exec (.sknp x) s = .next t ∧ t.pc = (if s.key k = true then s.pc else s.pc + 2#16) ∧ SameBut [.pc] s t)

/-- 44 R175: `Fx0A` enters WaitingForKey(x) and changes nothing else: keys already held do not matter (the spec's own
decision, 92 D20). -/
def Obligations.WaitKeyEntersTheWait : Prop :=
  ∀ (x : Nibble) (s : State), ∃ t, exec (.waitKey x) s = .next t ∧ t.run = .waitingForKey x ∧ SameBut [.run] s t

/-- 44 R175, 45 R194: from the step that fetches `Fx0A` on, steps leave everything unchanged, pc at A + 2 (92 D18), until
set_key presses a key that was up; then Vx is the key's number, the engine runs and pc is still A + 2 (92 D19). -/
def Obligations.WaitEndsWithAPress : Prop :=
  ∀ (font : Font) (x k : Nibble) (s : State), s.fault = none → s.run = .running → s.pc.toNat ≤ 0xFFE →
    decode s.fetchWord = .instr (.waitKey x) → s.key k = false →
    ∃ t u, step s = .next t ∧ t.pc = s.pc + 2#16 ∧ step t = .next t ∧
      (runCommand font (.setKey k true) t).1 = u ∧ (u.reg x).toNat = k.toNat ∧ u.key k = true ∧ u.run = .running ∧
      u.pc = s.pc + 2#16 ∧ RegsSameBut x s u ∧ SameBut [.regs, .keys, .pc] s u

/-! ## Host commands (45_host_commands.md) -/

/-- 45 R200: while a fault is latched no command but initialize changes anything, and tick_timers answers 0 (the spec's own
decision, 92 D12). -/
def Obligations.FaultedEngineIsFrozen : Prop :=
  ∀ (font : Font) (c : Command) (s : State), s.fault ≠ none → (∀ start, c ≠ .initializeAt start) →
    (runCommand font c s).1 = s ∧ (c = .tickTimers → (runCommand font c s).2 = .toneStop false) ∧
      (c = .step → (runCommand font c s).2 = .redraw s.redrawPending)

/-- 45 R196: a tick of an engine without a fault, running or waiting (92 D21), takes each timer down by 1 to a floor of 0,
answers tone_stop exactly when ST goes from 1 to 0, and changes nothing else. -/
def Obligations.TickCountsDown : Prop :=
  ∀ (font : Font) (s : State), s.fault = none → ∃ t, (runCommand font .tickTimers s).1 = t ∧
    t.dt.toNat = s.dt.toNat - 1 ∧ t.st.toNat = s.st.toNat - 1 ∧
    (runCommand font .tickTimers s).2 = .toneStop (decide (s.st.toNat = 1 ∧ t.st.toNat = 0)) ∧
    SameBut [.delay, .sound] s t

/-- 45 R194: set_key on an engine without a fault records the level of that one key; it ends a wait exactly when it presses a
key that was up, writing the key's number to the waiting register (92 D19), and changes nothing else. -/
def Obligations.SetKeyRecordsAndResolves : Prop :=
  ∀ (font : Font) (k : Nibble) (pressed : Bool) (s : State), s.fault = none →
    ∃ t, (runCommand font (.setKey k pressed) s).1 = t ∧
    t.key k = pressed ∧ (∀ q, q ≠ k → t.key q = s.key q) ∧ SameBut [.keys, .run, .regs] s t ∧
    (∀ r, s.run = .waitingForKey r → pressed = true → s.key k = false →
      t.run = .running ∧ t.reg r = k.setWidth 8 ∧ RegsSameBut r s t) ∧
    ((s.run = .running ∨ pressed = false ∨ s.key k = true) → t.run = s.run ∧ ∀ r, t.reg r = s.reg r)

/-- 45 R193: a program of at most 3584 bytes is copied verbatim to 0x200 and nothing else changes; a larger one changes
nothing and is answered ProgramTooLarge (the spec's own decision, 92 D26). -/
def Obligations.LoadProgramCopies : Prop :=
  ∀ (font : Font) (bytes : List Byte) (s : State), s.fault = none →
    (bytes.length ≤ 3584 → ∃ t, runCommand font (.loadProgram bytes) s = (t, .accepted) ∧
      (∀ k (h : k < bytes.length), t.byteAt (0x200 + k) = bytes[k]) ∧
      (∀ a, (a < 0x200 ∨ 0x200 + bytes.length ≤ a) → t.byteAt a = s.byteAt a) ∧ SameBut [.mem] s t) ∧
    (3584 < bytes.length → runCommand font (.loadProgram bytes) s = (s, .programTooLarge))

/-- 45 R197: display answers the grid, cell (c, r) at index r*64 + c, in every state, and changes nothing. -/
def Obligations.DisplayReadsTheGrid : Prop :=
  ∀ (font : Font) (s : State), (runCommand font .display s).1 = s ∧
    ∃ g : BitVec 2048, (runCommand font .display s).2 = .grid g ∧
    ∀ c r, c < 64 → r < 32 → g.getLsbD (r * 64 + c) = fbCell s.fb c r

/-- 45 R198, R203: clear_redraw clears the flag and nothing else, and a step answers the flag as it stands after it: once set
it stays set through steps (sticky: 90 C4, 92 D23, D24). -/
def Obligations.RedrawFlagIsSticky : Prop :=
  (∀ (font : Font) (s : State), s.fault = none → ∃ t, (runCommand font .clearRedraw s).1 = t ∧ t.redrawPending = false ∧
    SameBut [.redraw] s t) ∧
  ∀ (font : Font) (s : State), (runCommand font .step s).2 = .redraw (runCommand font .step s).1.redrawPending ∧
    (s.redrawPending = true → (runCommand font .step s).1.redrawPending = true)
end

