-- ==== Sys2Proof/Laws/State.lean ====
section
/-!
SUPPORT. Beside State: for each named update, what every field and every accessor reads afterwards. All true by unfolding, so
that no later proof unfolds a record update.
-/

namespace Sys2Proof.Machine

/-! ## setReg -/

@[simp] theorem State.setReg_mem (s : State) (x : Nibble) (b : Byte) : (s.setReg x b).mem = s.mem := rfl
@[simp] theorem State.setReg_v (s : State) (x : Nibble) (b : Byte) : (s.setReg x b).v = s.v.set x.toNat b x.isLt := rfl
@[simp] theorem State.setReg_i (s : State) (x : Nibble) (b : Byte) : (s.setReg x b).i = s.i := rfl
@[simp] theorem State.setReg_pc (s : State) (x : Nibble) (b : Byte) : (s.setReg x b).pc = s.pc := rfl
@[simp] theorem State.setReg_stack (s : State) (x : Nibble) (b : Byte) : (s.setReg x b).stack = s.stack := rfl
@[simp] theorem State.setReg_sp (s : State) (x : Nibble) (b : Byte) : (s.setReg x b).sp = s.sp := rfl
@[simp] theorem State.setReg_dt (s : State) (x : Nibble) (b : Byte) : (s.setReg x b).dt = s.dt := rfl
@[simp] theorem State.setReg_st (s : State) (x : Nibble) (b : Byte) : (s.setReg x b).st = s.st := rfl
@[simp] theorem State.setReg_fb (s : State) (x : Nibble) (b : Byte) : (s.setReg x b).fb = s.fb := rfl
@[simp] theorem State.setReg_keys (s : State) (x : Nibble) (b : Byte) : (s.setReg x b).keys = s.keys := rfl
@[simp] theorem State.setReg_run (s : State) (x : Nibble) (b : Byte) : (s.setReg x b).run = s.run := rfl
@[simp] theorem State.setReg_redrawPending (s : State) (x : Nibble) (b : Byte) : (s.setReg x b).redrawPending = s.redrawPending := rfl
@[simp] theorem State.setReg_fault (s : State) (x : Nibble) (b : Byte) : (s.setReg x b).fault = s.fault := rfl
@[simp] theorem State.setReg_draws (s : State) (x : Nibble) (b : Byte) : (s.setReg x b).draws = s.draws := rfl
@[simp] theorem State.setReg_byteAt (s : State) (x : Nibble) (b : Byte) (q : Nat) : (s.setReg x b).byteAt q = s.byteAt q := rfl
@[simp] theorem State.setReg_key (s : State) (x : Nibble) (b : Byte) (q : Nibble) : (s.setReg x b).key q = s.key q := rfl
@[simp] theorem State.setReg_stackSlot (s : State) (x : Nibble) (b : Byte) (q : Fin 16) : (s.setReg x b).stackSlot q = s.stackSlot q := rfl

/-! ## setIndex -/

@[simp] theorem State.setIndex_mem (s : State) (a : Word) : (s.setIndex a).mem = s.mem := rfl
@[simp] theorem State.setIndex_v (s : State) (a : Word) : (s.setIndex a).v = s.v := rfl
@[simp] theorem State.setIndex_i (s : State) (a : Word) : (s.setIndex a).i = a := rfl
@[simp] theorem State.setIndex_pc (s : State) (a : Word) : (s.setIndex a).pc = s.pc := rfl
@[simp] theorem State.setIndex_stack (s : State) (a : Word) : (s.setIndex a).stack = s.stack := rfl
@[simp] theorem State.setIndex_sp (s : State) (a : Word) : (s.setIndex a).sp = s.sp := rfl
@[simp] theorem State.setIndex_dt (s : State) (a : Word) : (s.setIndex a).dt = s.dt := rfl
@[simp] theorem State.setIndex_st (s : State) (a : Word) : (s.setIndex a).st = s.st := rfl
@[simp] theorem State.setIndex_fb (s : State) (a : Word) : (s.setIndex a).fb = s.fb := rfl
@[simp] theorem State.setIndex_keys (s : State) (a : Word) : (s.setIndex a).keys = s.keys := rfl
@[simp] theorem State.setIndex_run (s : State) (a : Word) : (s.setIndex a).run = s.run := rfl
@[simp] theorem State.setIndex_redrawPending (s : State) (a : Word) : (s.setIndex a).redrawPending = s.redrawPending := rfl
@[simp] theorem State.setIndex_fault (s : State) (a : Word) : (s.setIndex a).fault = s.fault := rfl
@[simp] theorem State.setIndex_draws (s : State) (a : Word) : (s.setIndex a).draws = s.draws := rfl
@[simp] theorem State.setIndex_reg (s : State) (a : Word) (q : Nibble) : (s.setIndex a).reg q = s.reg q := rfl
@[simp] theorem State.setIndex_byteAt (s : State) (a : Word) (q : Nat) : (s.setIndex a).byteAt q = s.byteAt q := rfl
@[simp] theorem State.setIndex_key (s : State) (a : Word) (q : Nibble) : (s.setIndex a).key q = s.key q := rfl
@[simp] theorem State.setIndex_stackSlot (s : State) (a : Word) (q : Fin 16) : (s.setIndex a).stackSlot q = s.stackSlot q := rfl

/-! ## setPc -/

@[simp] theorem State.setPc_mem (s : State) (a : Word) : (s.setPc a).mem = s.mem := rfl
@[simp] theorem State.setPc_v (s : State) (a : Word) : (s.setPc a).v = s.v := rfl
@[simp] theorem State.setPc_i (s : State) (a : Word) : (s.setPc a).i = s.i := rfl
@[simp] theorem State.setPc_pc (s : State) (a : Word) : (s.setPc a).pc = a := rfl
@[simp] theorem State.setPc_stack (s : State) (a : Word) : (s.setPc a).stack = s.stack := rfl
@[simp] theorem State.setPc_sp (s : State) (a : Word) : (s.setPc a).sp = s.sp := rfl
@[simp] theorem State.setPc_dt (s : State) (a : Word) : (s.setPc a).dt = s.dt := rfl
@[simp] theorem State.setPc_st (s : State) (a : Word) : (s.setPc a).st = s.st := rfl
@[simp] theorem State.setPc_fb (s : State) (a : Word) : (s.setPc a).fb = s.fb := rfl
@[simp] theorem State.setPc_keys (s : State) (a : Word) : (s.setPc a).keys = s.keys := rfl
@[simp] theorem State.setPc_run (s : State) (a : Word) : (s.setPc a).run = s.run := rfl
@[simp] theorem State.setPc_redrawPending (s : State) (a : Word) : (s.setPc a).redrawPending = s.redrawPending := rfl
@[simp] theorem State.setPc_fault (s : State) (a : Word) : (s.setPc a).fault = s.fault := rfl
@[simp] theorem State.setPc_draws (s : State) (a : Word) : (s.setPc a).draws = s.draws := rfl
@[simp] theorem State.setPc_reg (s : State) (a : Word) (q : Nibble) : (s.setPc a).reg q = s.reg q := rfl
@[simp] theorem State.setPc_byteAt (s : State) (a : Word) (q : Nat) : (s.setPc a).byteAt q = s.byteAt q := rfl
@[simp] theorem State.setPc_key (s : State) (a : Word) (q : Nibble) : (s.setPc a).key q = s.key q := rfl
@[simp] theorem State.setPc_stackSlot (s : State) (a : Word) (q : Fin 16) : (s.setPc a).stackSlot q = s.stackSlot q := rfl

/-! ## setMem -/

@[simp] theorem State.setMem_mem (s : State) (m : Memory) : (s.setMem m).mem = m := rfl
@[simp] theorem State.setMem_v (s : State) (m : Memory) : (s.setMem m).v = s.v := rfl
@[simp] theorem State.setMem_i (s : State) (m : Memory) : (s.setMem m).i = s.i := rfl
@[simp] theorem State.setMem_pc (s : State) (m : Memory) : (s.setMem m).pc = s.pc := rfl
@[simp] theorem State.setMem_stack (s : State) (m : Memory) : (s.setMem m).stack = s.stack := rfl
@[simp] theorem State.setMem_sp (s : State) (m : Memory) : (s.setMem m).sp = s.sp := rfl
@[simp] theorem State.setMem_dt (s : State) (m : Memory) : (s.setMem m).dt = s.dt := rfl
@[simp] theorem State.setMem_st (s : State) (m : Memory) : (s.setMem m).st = s.st := rfl
@[simp] theorem State.setMem_fb (s : State) (m : Memory) : (s.setMem m).fb = s.fb := rfl
@[simp] theorem State.setMem_keys (s : State) (m : Memory) : (s.setMem m).keys = s.keys := rfl
@[simp] theorem State.setMem_run (s : State) (m : Memory) : (s.setMem m).run = s.run := rfl
@[simp] theorem State.setMem_redrawPending (s : State) (m : Memory) : (s.setMem m).redrawPending = s.redrawPending := rfl
@[simp] theorem State.setMem_fault (s : State) (m : Memory) : (s.setMem m).fault = s.fault := rfl
@[simp] theorem State.setMem_draws (s : State) (m : Memory) : (s.setMem m).draws = s.draws := rfl
@[simp] theorem State.setMem_reg (s : State) (m : Memory) (q : Nibble) : (s.setMem m).reg q = s.reg q := rfl
@[simp] theorem State.setMem_byteAt (s : State) (m : Memory) (q : Nat) : (s.setMem m).byteAt q = m.read q := rfl
@[simp] theorem State.setMem_key (s : State) (m : Memory) (q : Nibble) : (s.setMem m).key q = s.key q := rfl
@[simp] theorem State.setMem_stackSlot (s : State) (m : Memory) (q : Fin 16) : (s.setMem m).stackSlot q = s.stackSlot q := rfl

/-! ## setDT -/

@[simp] theorem State.setDT_mem (s : State) (b : Byte) : (s.setDT b).mem = s.mem := rfl
@[simp] theorem State.setDT_v (s : State) (b : Byte) : (s.setDT b).v = s.v := rfl
@[simp] theorem State.setDT_i (s : State) (b : Byte) : (s.setDT b).i = s.i := rfl
@[simp] theorem State.setDT_pc (s : State) (b : Byte) : (s.setDT b).pc = s.pc := rfl
@[simp] theorem State.setDT_stack (s : State) (b : Byte) : (s.setDT b).stack = s.stack := rfl
@[simp] theorem State.setDT_sp (s : State) (b : Byte) : (s.setDT b).sp = s.sp := rfl
@[simp] theorem State.setDT_dt (s : State) (b : Byte) : (s.setDT b).dt = b := rfl
@[simp] theorem State.setDT_st (s : State) (b : Byte) : (s.setDT b).st = s.st := rfl
@[simp] theorem State.setDT_fb (s : State) (b : Byte) : (s.setDT b).fb = s.fb := rfl
@[simp] theorem State.setDT_keys (s : State) (b : Byte) : (s.setDT b).keys = s.keys := rfl
@[simp] theorem State.setDT_run (s : State) (b : Byte) : (s.setDT b).run = s.run := rfl
@[simp] theorem State.setDT_redrawPending (s : State) (b : Byte) : (s.setDT b).redrawPending = s.redrawPending := rfl
@[simp] theorem State.setDT_fault (s : State) (b : Byte) : (s.setDT b).fault = s.fault := rfl
@[simp] theorem State.setDT_draws (s : State) (b : Byte) : (s.setDT b).draws = s.draws := rfl
@[simp] theorem State.setDT_reg (s : State) (b : Byte) (q : Nibble) : (s.setDT b).reg q = s.reg q := rfl
@[simp] theorem State.setDT_byteAt (s : State) (b : Byte) (q : Nat) : (s.setDT b).byteAt q = s.byteAt q := rfl
@[simp] theorem State.setDT_key (s : State) (b : Byte) (q : Nibble) : (s.setDT b).key q = s.key q := rfl
@[simp] theorem State.setDT_stackSlot (s : State) (b : Byte) (q : Fin 16) : (s.setDT b).stackSlot q = s.stackSlot q := rfl

/-! ## setST -/

@[simp] theorem State.setST_mem (s : State) (b : Byte) : (s.setST b).mem = s.mem := rfl
@[simp] theorem State.setST_v (s : State) (b : Byte) : (s.setST b).v = s.v := rfl
@[simp] theorem State.setST_i (s : State) (b : Byte) : (s.setST b).i = s.i := rfl
@[simp] theorem State.setST_pc (s : State) (b : Byte) : (s.setST b).pc = s.pc := rfl
@[simp] theorem State.setST_stack (s : State) (b : Byte) : (s.setST b).stack = s.stack := rfl
@[simp] theorem State.setST_sp (s : State) (b : Byte) : (s.setST b).sp = s.sp := rfl
@[simp] theorem State.setST_dt (s : State) (b : Byte) : (s.setST b).dt = s.dt := rfl
@[simp] theorem State.setST_st (s : State) (b : Byte) : (s.setST b).st = b := rfl
@[simp] theorem State.setST_fb (s : State) (b : Byte) : (s.setST b).fb = s.fb := rfl
@[simp] theorem State.setST_keys (s : State) (b : Byte) : (s.setST b).keys = s.keys := rfl
@[simp] theorem State.setST_run (s : State) (b : Byte) : (s.setST b).run = s.run := rfl
@[simp] theorem State.setST_redrawPending (s : State) (b : Byte) : (s.setST b).redrawPending = s.redrawPending := rfl
@[simp] theorem State.setST_fault (s : State) (b : Byte) : (s.setST b).fault = s.fault := rfl
@[simp] theorem State.setST_draws (s : State) (b : Byte) : (s.setST b).draws = s.draws := rfl
@[simp] theorem State.setST_reg (s : State) (b : Byte) (q : Nibble) : (s.setST b).reg q = s.reg q := rfl
@[simp] theorem State.setST_byteAt (s : State) (b : Byte) (q : Nat) : (s.setST b).byteAt q = s.byteAt q := rfl
@[simp] theorem State.setST_key (s : State) (b : Byte) (q : Nibble) : (s.setST b).key q = s.key q := rfl
@[simp] theorem State.setST_stackSlot (s : State) (b : Byte) (q : Fin 16) : (s.setST b).stackSlot q = s.stackSlot q := rfl

/-! ## setDisplay -/

@[simp] theorem State.setDisplay_mem (s : State) (f : BitVec 2048) : (s.setDisplay f).mem = s.mem := rfl
@[simp] theorem State.setDisplay_v (s : State) (f : BitVec 2048) : (s.setDisplay f).v = s.v := rfl
@[simp] theorem State.setDisplay_i (s : State) (f : BitVec 2048) : (s.setDisplay f).i = s.i := rfl
@[simp] theorem State.setDisplay_pc (s : State) (f : BitVec 2048) : (s.setDisplay f).pc = s.pc := rfl
@[simp] theorem State.setDisplay_stack (s : State) (f : BitVec 2048) : (s.setDisplay f).stack = s.stack := rfl
@[simp] theorem State.setDisplay_sp (s : State) (f : BitVec 2048) : (s.setDisplay f).sp = s.sp := rfl
@[simp] theorem State.setDisplay_dt (s : State) (f : BitVec 2048) : (s.setDisplay f).dt = s.dt := rfl
@[simp] theorem State.setDisplay_st (s : State) (f : BitVec 2048) : (s.setDisplay f).st = s.st := rfl
@[simp] theorem State.setDisplay_fb (s : State) (f : BitVec 2048) : (s.setDisplay f).fb = f := rfl
@[simp] theorem State.setDisplay_keys (s : State) (f : BitVec 2048) : (s.setDisplay f).keys = s.keys := rfl
@[simp] theorem State.setDisplay_run (s : State) (f : BitVec 2048) : (s.setDisplay f).run = s.run := rfl
@[simp] theorem State.setDisplay_redrawPending (s : State) (f : BitVec 2048) : (s.setDisplay f).redrawPending = true := rfl
@[simp] theorem State.setDisplay_fault (s : State) (f : BitVec 2048) : (s.setDisplay f).fault = s.fault := rfl
@[simp] theorem State.setDisplay_draws (s : State) (f : BitVec 2048) : (s.setDisplay f).draws = s.draws := rfl
@[simp] theorem State.setDisplay_reg (s : State) (f : BitVec 2048) (q : Nibble) : (s.setDisplay f).reg q = s.reg q := rfl
@[simp] theorem State.setDisplay_byteAt (s : State) (f : BitVec 2048) (q : Nat) : (s.setDisplay f).byteAt q = s.byteAt q := rfl
@[simp] theorem State.setDisplay_key (s : State) (f : BitVec 2048) (q : Nibble) : (s.setDisplay f).key q = s.key q := rfl
@[simp] theorem State.setDisplay_stackSlot (s : State) (f : BitVec 2048) (q : Fin 16) : (s.setDisplay f).stackSlot q = s.stackSlot q := rfl

/-! ## setRun -/

@[simp] theorem State.setRun_mem (s : State) (r : RunState) : (s.setRun r).mem = s.mem := rfl
@[simp] theorem State.setRun_v (s : State) (r : RunState) : (s.setRun r).v = s.v := rfl
@[simp] theorem State.setRun_i (s : State) (r : RunState) : (s.setRun r).i = s.i := rfl
@[simp] theorem State.setRun_pc (s : State) (r : RunState) : (s.setRun r).pc = s.pc := rfl
@[simp] theorem State.setRun_stack (s : State) (r : RunState) : (s.setRun r).stack = s.stack := rfl
@[simp] theorem State.setRun_sp (s : State) (r : RunState) : (s.setRun r).sp = s.sp := rfl
@[simp] theorem State.setRun_dt (s : State) (r : RunState) : (s.setRun r).dt = s.dt := rfl
@[simp] theorem State.setRun_st (s : State) (r : RunState) : (s.setRun r).st = s.st := rfl
@[simp] theorem State.setRun_fb (s : State) (r : RunState) : (s.setRun r).fb = s.fb := rfl
@[simp] theorem State.setRun_keys (s : State) (r : RunState) : (s.setRun r).keys = s.keys := rfl
@[simp] theorem State.setRun_run (s : State) (r : RunState) : (s.setRun r).run = r := rfl
@[simp] theorem State.setRun_redrawPending (s : State) (r : RunState) : (s.setRun r).redrawPending = s.redrawPending := rfl
@[simp] theorem State.setRun_fault (s : State) (r : RunState) : (s.setRun r).fault = s.fault := rfl
@[simp] theorem State.setRun_draws (s : State) (r : RunState) : (s.setRun r).draws = s.draws := rfl
@[simp] theorem State.setRun_reg (s : State) (r : RunState) (q : Nibble) : (s.setRun r).reg q = s.reg q := rfl
@[simp] theorem State.setRun_byteAt (s : State) (r : RunState) (q : Nat) : (s.setRun r).byteAt q = s.byteAt q := rfl
@[simp] theorem State.setRun_key (s : State) (r : RunState) (q : Nibble) : (s.setRun r).key q = s.key q := rfl
@[simp] theorem State.setRun_stackSlot (s : State) (r : RunState) (q : Fin 16) : (s.setRun r).stackSlot q = s.stackSlot q := rfl

/-! ## setKeyState -/

@[simp] theorem State.setKeyState_mem (s : State) (k : Nibble) (b : Bool) : (s.setKeyState k b).mem = s.mem := rfl
@[simp] theorem State.setKeyState_v (s : State) (k : Nibble) (b : Bool) : (s.setKeyState k b).v = s.v := rfl
@[simp] theorem State.setKeyState_i (s : State) (k : Nibble) (b : Bool) : (s.setKeyState k b).i = s.i := rfl
@[simp] theorem State.setKeyState_pc (s : State) (k : Nibble) (b : Bool) : (s.setKeyState k b).pc = s.pc := rfl
@[simp] theorem State.setKeyState_stack (s : State) (k : Nibble) (b : Bool) : (s.setKeyState k b).stack = s.stack := rfl
@[simp] theorem State.setKeyState_sp (s : State) (k : Nibble) (b : Bool) : (s.setKeyState k b).sp = s.sp := rfl
@[simp] theorem State.setKeyState_dt (s : State) (k : Nibble) (b : Bool) : (s.setKeyState k b).dt = s.dt := rfl
@[simp] theorem State.setKeyState_st (s : State) (k : Nibble) (b : Bool) : (s.setKeyState k b).st = s.st := rfl
@[simp] theorem State.setKeyState_fb (s : State) (k : Nibble) (b : Bool) : (s.setKeyState k b).fb = s.fb := rfl
@[simp] theorem State.setKeyState_keys (s : State) (k : Nibble) (b : Bool) : (s.setKeyState k b).keys = s.keys.set k.toNat b k.isLt := rfl
@[simp] theorem State.setKeyState_run (s : State) (k : Nibble) (b : Bool) : (s.setKeyState k b).run = s.run := rfl
@[simp] theorem State.setKeyState_redrawPending (s : State) (k : Nibble) (b : Bool) : (s.setKeyState k b).redrawPending = s.redrawPending := rfl
@[simp] theorem State.setKeyState_fault (s : State) (k : Nibble) (b : Bool) : (s.setKeyState k b).fault = s.fault := rfl
@[simp] theorem State.setKeyState_draws (s : State) (k : Nibble) (b : Bool) : (s.setKeyState k b).draws = s.draws := rfl
@[simp] theorem State.setKeyState_reg (s : State) (k : Nibble) (b : Bool) (q : Nibble) : (s.setKeyState k b).reg q = s.reg q := rfl
@[simp] theorem State.setKeyState_byteAt (s : State) (k : Nibble) (b : Bool) (q : Nat) : (s.setKeyState k b).byteAt q = s.byteAt q := rfl
@[simp] theorem State.setKeyState_stackSlot (s : State) (k : Nibble) (b : Bool) (q : Fin 16) : (s.setKeyState k b).stackSlot q = s.stackSlot q := rfl

/-! ## clearRedraw -/

@[simp] theorem State.clearRedraw_mem (s : State) : (s.clearRedraw).mem = s.mem := rfl
@[simp] theorem State.clearRedraw_v (s : State) : (s.clearRedraw).v = s.v := rfl
@[simp] theorem State.clearRedraw_i (s : State) : (s.clearRedraw).i = s.i := rfl
@[simp] theorem State.clearRedraw_pc (s : State) : (s.clearRedraw).pc = s.pc := rfl
@[simp] theorem State.clearRedraw_stack (s : State) : (s.clearRedraw).stack = s.stack := rfl
@[simp] theorem State.clearRedraw_sp (s : State) : (s.clearRedraw).sp = s.sp := rfl
@[simp] theorem State.clearRedraw_dt (s : State) : (s.clearRedraw).dt = s.dt := rfl
@[simp] theorem State.clearRedraw_st (s : State) : (s.clearRedraw).st = s.st := rfl
@[simp] theorem State.clearRedraw_fb (s : State) : (s.clearRedraw).fb = s.fb := rfl
@[simp] theorem State.clearRedraw_keys (s : State) : (s.clearRedraw).keys = s.keys := rfl
@[simp] theorem State.clearRedraw_run (s : State) : (s.clearRedraw).run = s.run := rfl
@[simp] theorem State.clearRedraw_redrawPending (s : State) : (s.clearRedraw).redrawPending = false := rfl
@[simp] theorem State.clearRedraw_fault (s : State) : (s.clearRedraw).fault = s.fault := rfl
@[simp] theorem State.clearRedraw_draws (s : State) : (s.clearRedraw).draws = s.draws := rfl
@[simp] theorem State.clearRedraw_reg (s : State) (q : Nibble) : (s.clearRedraw).reg q = s.reg q := rfl
@[simp] theorem State.clearRedraw_byteAt (s : State) (q : Nat) : (s.clearRedraw).byteAt q = s.byteAt q := rfl
@[simp] theorem State.clearRedraw_key (s : State) (q : Nibble) : (s.clearRedraw).key q = s.key q := rfl
@[simp] theorem State.clearRedraw_stackSlot (s : State) (q : Fin 16) : (s.clearRedraw).stackSlot q = s.stackSlot q := rfl

/-! ## nextDraw -/

@[simp] theorem State.nextDraw_mem (s : State) : (s.nextDraw).mem = s.mem := rfl
@[simp] theorem State.nextDraw_v (s : State) : (s.nextDraw).v = s.v := rfl
@[simp] theorem State.nextDraw_i (s : State) : (s.nextDraw).i = s.i := rfl
@[simp] theorem State.nextDraw_pc (s : State) : (s.nextDraw).pc = s.pc := rfl
@[simp] theorem State.nextDraw_stack (s : State) : (s.nextDraw).stack = s.stack := rfl
@[simp] theorem State.nextDraw_sp (s : State) : (s.nextDraw).sp = s.sp := rfl
@[simp] theorem State.nextDraw_dt (s : State) : (s.nextDraw).dt = s.dt := rfl
@[simp] theorem State.nextDraw_st (s : State) : (s.nextDraw).st = s.st := rfl
@[simp] theorem State.nextDraw_fb (s : State) : (s.nextDraw).fb = s.fb := rfl
@[simp] theorem State.nextDraw_keys (s : State) : (s.nextDraw).keys = s.keys := rfl
@[simp] theorem State.nextDraw_run (s : State) : (s.nextDraw).run = s.run := rfl
@[simp] theorem State.nextDraw_redrawPending (s : State) : (s.nextDraw).redrawPending = s.redrawPending := rfl
@[simp] theorem State.nextDraw_fault (s : State) : (s.nextDraw).fault = s.fault := rfl
@[simp] theorem State.nextDraw_draws (s : State) : (s.nextDraw).draws = s.draws + 1 := rfl
@[simp] theorem State.nextDraw_reg (s : State) (q : Nibble) : (s.nextDraw).reg q = s.reg q := rfl
@[simp] theorem State.nextDraw_byteAt (s : State) (q : Nat) : (s.nextDraw).byteAt q = s.byteAt q := rfl
@[simp] theorem State.nextDraw_key (s : State) (q : Nibble) : (s.nextDraw).key q = s.key q := rfl
@[simp] theorem State.nextDraw_stackSlot (s : State) (q : Fin 16) : (s.nextDraw).stackSlot q = s.stackSlot q := rfl

/-! ## latch -/

@[simp] theorem State.latch_mem (s : State) (r : FaultRecord) : (s.latch r).mem = s.mem := rfl
@[simp] theorem State.latch_v (s : State) (r : FaultRecord) : (s.latch r).v = s.v := rfl
@[simp] theorem State.latch_i (s : State) (r : FaultRecord) : (s.latch r).i = s.i := rfl
@[simp] theorem State.latch_pc (s : State) (r : FaultRecord) : (s.latch r).pc = s.pc := rfl
@[simp] theorem State.latch_stack (s : State) (r : FaultRecord) : (s.latch r).stack = s.stack := rfl
@[simp] theorem State.latch_sp (s : State) (r : FaultRecord) : (s.latch r).sp = s.sp := rfl
@[simp] theorem State.latch_dt (s : State) (r : FaultRecord) : (s.latch r).dt = s.dt := rfl
@[simp] theorem State.latch_st (s : State) (r : FaultRecord) : (s.latch r).st = s.st := rfl
@[simp] theorem State.latch_fb (s : State) (r : FaultRecord) : (s.latch r).fb = s.fb := rfl
@[simp] theorem State.latch_keys (s : State) (r : FaultRecord) : (s.latch r).keys = s.keys := rfl
@[simp] theorem State.latch_run (s : State) (r : FaultRecord) : (s.latch r).run = s.run := rfl
@[simp] theorem State.latch_redrawPending (s : State) (r : FaultRecord) : (s.latch r).redrawPending = s.redrawPending := rfl
@[simp] theorem State.latch_fault (s : State) (r : FaultRecord) : (s.latch r).fault = some r := rfl
@[simp] theorem State.latch_draws (s : State) (r : FaultRecord) : (s.latch r).draws = s.draws := rfl
@[simp] theorem State.latch_reg (s : State) (r : FaultRecord) (q : Nibble) : (s.latch r).reg q = s.reg q := rfl
@[simp] theorem State.latch_byteAt (s : State) (r : FaultRecord) (q : Nat) : (s.latch r).byteAt q = s.byteAt q := rfl
@[simp] theorem State.latch_key (s : State) (r : FaultRecord) (q : Nibble) : (s.latch r).key q = s.key q := rfl
@[simp] theorem State.latch_stackSlot (s : State) (r : FaultRecord) (q : Fin 16) : (s.latch r).stackSlot q = s.stackSlot q := rfl

/-! ## advance -/

@[simp] theorem State.advance_mem (s : State) : (s.advance).mem = s.mem := rfl
@[simp] theorem State.advance_v (s : State) : (s.advance).v = s.v := rfl
@[simp] theorem State.advance_i (s : State) : (s.advance).i = s.i := rfl
@[simp] theorem State.advance_pc (s : State) : (s.advance).pc = s.pc + 2#16 := rfl
@[simp] theorem State.advance_stack (s : State) : (s.advance).stack = s.stack := rfl
@[simp] theorem State.advance_sp (s : State) : (s.advance).sp = s.sp := rfl
@[simp] theorem State.advance_dt (s : State) : (s.advance).dt = s.dt := rfl
@[simp] theorem State.advance_st (s : State) : (s.advance).st = s.st := rfl
@[simp] theorem State.advance_fb (s : State) : (s.advance).fb = s.fb := rfl
@[simp] theorem State.advance_keys (s : State) : (s.advance).keys = s.keys := rfl
@[simp] theorem State.advance_run (s : State) : (s.advance).run = s.run := rfl
@[simp] theorem State.advance_redrawPending (s : State) : (s.advance).redrawPending = s.redrawPending := rfl
@[simp] theorem State.advance_fault (s : State) : (s.advance).fault = s.fault := rfl
@[simp] theorem State.advance_draws (s : State) : (s.advance).draws = s.draws := rfl
@[simp] theorem State.advance_reg (s : State) (q : Nibble) : (s.advance).reg q = s.reg q := rfl
@[simp] theorem State.advance_byteAt (s : State) (q : Nat) : (s.advance).byteAt q = s.byteAt q := rfl
@[simp] theorem State.advance_key (s : State) (q : Nibble) : (s.advance).key q = s.key q := rfl
@[simp] theorem State.advance_stackSlot (s : State) (q : Fin 16) : (s.advance).stackSlot q = s.stackSlot q := rfl

/-! ## initialized -/

@[simp] theorem State.initialized_mem (s : State) (font : Font) (start : Word) : (s.initialized font start).mem = Memory.loadFont font := rfl
@[simp] theorem State.initialized_byteAt (s : State) (font : Font) (start : Word) (q : Nat) : (s.initialized font start).byteAt q = (Memory.loadFont font).read q := rfl
@[simp] theorem State.initialized_v (s : State) (font : Font) (start : Word) : (s.initialized font start).v = State.reset.v := rfl
@[simp] theorem State.initialized_i (s : State) (font : Font) (start : Word) : (s.initialized font start).i = State.reset.i := rfl
@[simp] theorem State.initialized_pc (s : State) (font : Font) (start : Word) : (s.initialized font start).pc = start := rfl
@[simp] theorem State.initialized_stack (s : State) (font : Font) (start : Word) : (s.initialized font start).stack = State.reset.stack := rfl
@[simp] theorem State.initialized_sp (s : State) (font : Font) (start : Word) : (s.initialized font start).sp = State.reset.sp := rfl
@[simp] theorem State.initialized_dt (s : State) (font : Font) (start : Word) : (s.initialized font start).dt = State.reset.dt := rfl
@[simp] theorem State.initialized_st (s : State) (font : Font) (start : Word) : (s.initialized font start).st = State.reset.st := rfl
@[simp] theorem State.initialized_fb (s : State) (font : Font) (start : Word) : (s.initialized font start).fb = State.reset.fb := rfl
@[simp] theorem State.initialized_keys (s : State) (font : Font) (start : Word) : (s.initialized font start).keys = State.reset.keys := rfl
@[simp] theorem State.initialized_run (s : State) (font : Font) (start : Word) : (s.initialized font start).run = State.reset.run := rfl
@[simp] theorem State.initialized_redrawPending (s : State) (font : Font) (start : Word) : (s.initialized font start).redrawPending = State.reset.redrawPending := rfl
@[simp] theorem State.initialized_fault (s : State) (font : Font) (start : Word) : (s.initialized font start).fault = State.reset.fault := rfl
@[simp] theorem State.initialized_draws (s : State) (font : Font) (start : Word) : (s.initialized font start).draws = s.draws := rfl

end Sys2Proof.Machine
end

