-- ==== Sys2Proof/Laws/Memory.lean ====
section
/-!
SUPPORT. What the memory operations do, each said once: a read after a write, after a run of writes, and that every write
keeps the canonical form.
-/

namespace Sys2Proof.Machine

theorem Memory.read_insert (m : Memory) (a c : Nat) (w : Byte) :
    (m.insert a w).read c = if c = a then w else m.read c := by
  induction m with
  | nil => simp only [Memory.insert, Memory.read, eq_comm]
  | cons e m ih =>
    obtain ⟨b, u⟩ := e
    by_cases h : c = a
    · subst h
      simp only [Memory.insert]
      split
      · simp [Memory.read]
      · split
        · simp [Memory.read]
        · have : b ≠ c := by omega
          simp [Memory.read, this, ih]
    · have h' : ¬ a = c := fun e => h e.symm
      simp only [Memory.insert]
      split
      · simp [Memory.read, h']
      · split
        · rename_i hb
          subst hb
          simp [Memory.read, h']
        · simp only [Memory.read, ih, h, if_false]

theorem Memory.read_erase (m : Memory) (a c : Nat) :
    (m.erase a).read c = if c = a then resetByte a else m.read c := by
  induction m with
  | nil => by_cases h : c = a <;> simp [Memory.erase, Memory.read, h]
  | cons e m ih =>
    obtain ⟨b, u⟩ := e
    by_cases hb : b = a
    · subst hb
      by_cases h : c = b
      · subst h
        simp [Memory.erase, ih]
      · have h' : ¬ b = c := fun e => h e.symm
        simp [Memory.erase, Memory.read, ih, h, h']
    · by_cases h : c = a
      · subst h
        simp [Memory.erase, Memory.read, ih, hb]
      · simp [Memory.erase, Memory.read, ih, hb, h]

/-- A read after a write (20 R53, R59): the byte written at its address, the old byte everywhere else. -/
theorem Memory.read_write (m : Memory) (a c : Nat) (w : Byte) :
    (m.write a w).read c = if c = a then w else m.read c := by
  unfold Memory.write
  split
  · rename_i h
    rw [Memory.read_erase, h]
  · exact Memory.read_insert m a c w

/-- A read after a run of writes at ascending addresses. -/
theorem Memory.read_writeBytes (m : Memory) (b c : Nat) (ws : List Byte) :
    (m.writeBytes b ws).read c =
      if b ≤ c ∧ c < b + ws.length then ws.getD (c - b) 0x00#8 else m.read c := by
  induction ws generalizing m b with
  | nil =>
    have : ¬ (b ≤ c ∧ c < b + 0) := by omega
    simp only [Memory.writeBytes, List.length_nil, this, if_false]
  | cons w ws ih =>
    rw [Memory.writeBytes, ih, Memory.read_write, List.length_cons]
    by_cases hc : c = b
    · subst hc
      have h1 : ¬ (c + 1 ≤ c ∧ c < c + 1 + ws.length) := by omega
      have h2 : c ≤ c ∧ c < c + (ws.length + 1) := by omega
      rw [if_neg h1, if_pos rfl, if_pos h2]
      simp
    · by_cases h : b + 1 ≤ c ∧ c < b + 1 + ws.length
      · have h2 : b ≤ c ∧ c < b + (ws.length + 1) := by omega
        have e : c - b = (c - (b + 1)) + 1 := by omega
        rw [if_pos h, if_pos h2, e, List.getD_cons_succ]
      · have h2 : ¬ (b ≤ c ∧ c < b + (ws.length + 1)) := by omega
        rw [if_neg h, if_neg h2, if_neg hc]

theorem Memory.wfFrom_cons {lo a : Nat} {w : Byte} {m : Memory} :
    Memory.wfFrom lo ((a, w) :: m) = true ↔
      lo ≤ a ∧ a < memSize ∧ w ≠ resetByte a ∧ Memory.wfFrom (a + 1) m = true := by
  simp [Memory.wfFrom, and_assoc]

theorem Memory.wfFrom_mono {lo lo' : Nat} {m : Memory} (h : lo' ≤ lo) (hm : Memory.wfFrom lo m = true) :
    Memory.wfFrom lo' m = true := by
  cases m with
  | nil => rfl
  | cons e m =>
    obtain ⟨a, w⟩ := e
    rw [Memory.wfFrom_cons] at hm ⊢
    exact ⟨by omega, hm.2⟩

theorem Memory.wfFrom_insert {lo a : Nat} {w : Byte} {m : Memory} (hm : Memory.wfFrom lo m = true) (hlo : lo ≤ a)
    (ha : a < memSize) (hw : w ≠ resetByte a) : Memory.wfFrom lo (m.insert a w) = true := by
  induction m generalizing lo with
  | nil => exact Memory.wfFrom_cons.2 ⟨hlo, ha, hw, rfl⟩
  | cons e m ih =>
    obtain ⟨b, u⟩ := e
    rw [Memory.wfFrom_cons] at hm
    obtain ⟨h1, h2, h3, h4⟩ := hm
    simp only [Memory.insert]
    split
    · exact Memory.wfFrom_cons.2 ⟨hlo, ha, hw, Memory.wfFrom_cons.2 ⟨by omega, h2, h3, h4⟩⟩
    · split
      · rename_i hb
        subst hb
        exact Memory.wfFrom_cons.2 ⟨hlo, ha, hw, h4⟩
      · exact Memory.wfFrom_cons.2 ⟨h1, h2, h3, ih h4 (by omega)⟩

theorem Memory.wfFrom_erase {lo : Nat} (a : Nat) {m : Memory} (hm : Memory.wfFrom lo m = true) :
    Memory.wfFrom lo (m.erase a) = true := by
  induction m generalizing lo with
  | nil => rfl
  | cons e m ih =>
    obtain ⟨b, u⟩ := e
    rw [Memory.wfFrom_cons] at hm
    obtain ⟨h1, h2, h3, h4⟩ := hm
    simp only [Memory.erase]
    split
    · exact ih (Memory.wfFrom_mono (by omega) h4)
    · exact Memory.wfFrom_cons.2 ⟨h1, h2, h3, ih h4⟩

/-- A write below 0x1000 keeps the canonical form. -/
theorem Memory.wf_write {m : Memory} {a : Nat} (w : Byte) (hm : m.wf = true) (ha : a < memSize) :
    (m.write a w).wf = true := by
  unfold Memory.write
  split
  · exact Memory.wfFrom_erase a hm
  · rename_i h
    exact Memory.wfFrom_insert hm (Nat.zero_le a) ha h

/-- A run of writes that ends below 0x1000 keeps the canonical form. -/
theorem Memory.wf_writeBytes {m : Memory} {b : Nat} {ws : List Byte} (hm : m.wf = true)
    (hb : b + ws.length ≤ memSize) : (m.writeBytes b ws).wf = true := by
  induction ws generalizing m b with
  | nil => exact hm
  | cons w ws ih =>
    rw [List.length_cons] at hb
    exact ih (Memory.wf_write w hm (by omega)) (by omega)

/-- Memory with the font loaded: FONT at 0x000 to 0x04F, zero above (10 R35). -/
theorem Memory.read_loadFont (font : Font) (a : Nat) :
    (Memory.loadFont font).read a = if h : a < 80 then font[a] else 0x00#8 := by
  rw [Memory.loadFont, Memory.read_writeBytes]
  by_cases h : a < 80
  · simp [h]
  · have : defaultFontBytes.length ≤ a := by simp [defaultFontBytes]; omega
    simp [h, Memory.read, resetByte, List.getElem?_eq_none this]

/-- Memory with the font loaded is canonical, whatever the table. -/
theorem Memory.loadFont_wf (font : Font) : (Memory.loadFont font).wf = true :=
  Memory.wf_writeBytes rfl (by simp [memSize])

/-- Writing what unlisted addresses read as lists nothing. -/
theorem Memory.writeBytes_unlisted (b : Nat) (ws : List Byte) (h : ∀ k, k < ws.length → ws.getD k 0x00#8 = resetByte (b + k)) :
    Memory.writeBytes [] b ws = [] := by
  induction ws generalizing b with
  | nil => rfl
  | cons w ws ih =>
    have h0 : w = resetByte b := h 0 (Nat.zero_lt_succ _)
    rw [Memory.writeBytes, Memory.write, if_pos h0, Memory.erase]
    refine ih (b + 1) fun k hk => ?_
    have h1 := h (k + 1) (Nat.succ_lt_succ hk)
    rwa [List.getD_cons_succ, Nat.add_comm k 1, ← Nat.add_assoc] at h1

/-- The default table is what unlisted addresses read as, so memory then lists nothing. -/
theorem Memory.loadFont_default : Memory.loadFont defaultFont = [] :=
  Memory.writeBytes_unlisted 0 _ fun k _ => by rw [Nat.zero_add]; rfl

/-- `State.reset` is `initialize` with both parameters at their defaults (00 R7). -/
theorem State.initialized_defaults : State.reset.initialized defaultFont Config.startAddress = State.reset := by
  rw [State.initialized, Memory.loadFont_default]
  rfl

/-- Reset memory is canonical: it lists nothing. -/
theorem State.reset_mem_wf : State.reset.mem.wf = true := rfl

end Sys2Proof.Machine
end

