-- ==== Sys2Proof/Laws/Ops.lean ====
section
/-!
SUPPORT. What each shared operation over registers, keys, the stack and faults can do, said once.
-/

namespace Sys2Proof.Machine

/-- A register read after a register write (10 R21). -/
@[simp] theorem State.setReg_reg (s : State) (x r : Nibble) (b : Byte) :
    (s.setReg x b).reg r = if r = x then b else s.reg r := by
  simp only [State.reg, State.setReg, Vector.getElem_set, BitVec.toNat_inj, eq_comm]

/-- A key read after a key write (10 R30). -/
@[simp] theorem State.setKeyState_key (s : State) (k q : Nibble) (b : Bool) :
    (s.setKeyState k b).key q = if q = k then b else s.key q := by
  simp only [State.key, State.setKeyState, Vector.getElem_set, BitVec.toNat_inj, eq_comm]

/-- A register read after the flag write and the result write: with x = 0xF the result stays (40 R113). -/
theorem State.setFlagged_reg (s : State) (x r : Nibble) (flag : Bool) (result : Byte) :
    (s.setFlagged x flag result).reg r =
      if r = x then result else if r = regF then flagByte flag else s.reg r := by
  simp [State.setFlagged]

/-- The post-skip pc, and that a skip changes nothing else (41 R128). -/
theorem State.skipIf_eq (s : State) (c : Bool) :
    s.skipIf c = s.setPc (if c then s.pc + 2#16 else s.pc) := by
  cases c <;> rfl

/-- A push onto a stack with a free slot: the slot at the old depth, the new depth, and nothing else (41 R121). -/
theorem State.push_of_lt (s : State) (a : Word) (h : s.sp.val < 16) :
    s.push a = some { s with stack := s.stack.set s.sp.val a h, sp := ⟨s.sp.val + 1, Nat.succ_lt_succ h⟩ } := by
  simp [State.push, h]

/-- A push answers nothing exactly on a full stack (60 R212). -/
theorem State.push_eq_none_iff (s : State) (a : Word) : s.push a = none ↔ s.sp.val = 16 := by
  have := s.sp.isLt
  unfold State.push
  split <;> simp <;> omega

/-- Everything a push can do: it answers exactly when a slot is free, and then only `stack[sp]` and `sp` change. -/
theorem State.push_cases {s t : State} {a : Word} (h : s.push a = some t) :
    ∃ (lt : s.sp.val < 16) (slots : Vector Word 16) (d : Fin 17), t = { s with stack := slots, sp := d } ∧
      d.val = s.sp.val + 1 ∧ t.stackSlot ⟨s.sp.val, lt⟩ = a ∧
      ∀ k : Fin 16, k.val ≠ s.sp.val → t.stackSlot k = s.stackSlot k := by
  unfold State.push at h
  split at h
  · rename_i lt
    cases h
    refine ⟨lt, _, _, rfl, rfl, by simp [State.stackSlot], ?_⟩
    intro k hk
    simp only [State.stackSlot]
    exact Vector.getElem_set_ne _ _ (fun e => hk e.symm)
  · cases h

/-- A pop answers nothing exactly on an empty stack (60 R213). -/
theorem State.popPc_eq_none_iff (s : State) : s.popPc = none ↔ s.sp.val = 0 := by
  unfold State.popPc
  split
  · rename_i lt
    simp only [reduceCtorEq, false_iff]
    omega
  · rename_i lt
    simp only [true_iff]
    omega

/-- Everything a pop can do: it answers exactly when an entry is live, and then only `sp` and `pc` change (41 R122). -/
theorem State.popPc_cases {s t : State} (h : s.popPc = some t) :
    ∃ (k : Fin 16) (d : Fin 17), t = { s with sp := d, pc := s.stackSlot k } ∧ s.sp.val = k.val + 1 ∧ d.val = k.val := by
  unfold State.popPc at h
  split at h
  · rename_i lt
    cases h
    have := s.sp.isLt
    exact ⟨⟨s.sp.val - 1, by omega⟩, _, rfl, by simp only; omega, rfl⟩
  · cases h

/-- Everything raising a fault does: a next state that differs in the latch alone (60 R216). -/
theorem State.raise_eq (s : State) (k : FaultKind) (i : Instr) :
    s.raise k i = .next (s.latch { kind := k, opcode := some (encode i), address := s.pc - 2#16 }) := rfl

/-- A register read after a range load of fewer than seventeen registers (42 R145). -/
theorem State.loadFirst_reg (s : State) (base : Nat) (r : Nibble) {count : Nat} (h : count ≤ 16) :
    (s.loadFirst base count).reg r = if r.toNat < count then s.byteAt (base + r.toNat) else s.reg r := by
  induction count with
  | zero => simp [State.loadFirst]
  | succ k ih =>
    rw [State.loadFirst, State.setReg_reg, ih (by omega)]
    have e : r = BitVec.ofNat 4 k ↔ r.toNat = k := by
      rw [← BitVec.toNat_inj, BitVec.toNat_ofNat, Nat.mod_eq_of_lt (by omega)]
    by_cases hk : r.toNat = k
    · rw [if_pos (e.2 hk), if_pos (by omega), hk]
    · rw [if_neg (fun h' => hk (e.1 h'))]
      by_cases hl : r.toNat < k
      · rw [if_pos hl, if_pos (by omega)]
      · rw [if_neg hl, if_neg (by omega)]

/-- A range load changes the registers alone (42 R145). -/
theorem State.loadFirst_cases (s : State) (base count : Nat) :
    ∃ regs : Vector Byte 16, s.loadFirst base count = { s with v := regs } := by
  induction count with
  | zero => exact ⟨s.v, rfl⟩
  | succ k ih =>
    obtain ⟨regs, e⟩ := ih
    exact ⟨_, by rw [State.loadFirst, e]; rfl⟩

/-- The bytes of a range store are the registers in order (42 R144). -/
theorem State.firstRegs_getD (s : State) (r : Nibble) {count : Nat} (h : r.toNat < count) :
    (s.firstRegs count).getD r.toNat 0x00#8 = s.reg r := by
  have hr : r.toNat < 16 := r.isLt
  have hl : r.toNat < (s.v.toList.take count).length := by simp; omega
  rw [State.firstRegs, List.getD_eq_getElem _ _ hl, List.getElem_take]
  simp [State.reg]

theorem State.firstRegs_length (s : State) {count : Nat} (h : count ≤ 16) : (s.firstRegs count).length = count := by
  simp [State.firstRegs]; omega

/-- The range check, as 20 R54 words it. -/
theorem extentFits_iff (base : Word) (len : Nat) :
    extentFits base len = true ↔ (1 ≤ len → base.toNat + len - 1 ≤ 0xFFF) := by
  unfold extentFits effAddr memSize
  rw [decide_eq_true_eq]
  omega

/-- When the range check fails, as 60 R215 words it. -/
theorem not_extentFits_iff (base : Word) (len : Nat) :
    extentFits base len = false ↔ 1 ≤ len ∧ 0xFFF < base.toNat + len - 1 := by
  rw [← Bool.not_eq_true, extentFits_iff]
  omega

end Sys2Proof.Machine
end

