-- ==== Sys2Proof/Laws/Display.lean ====
section
/-!
SUPPORT. What the blitter does to every cell and to the collision bit (43_display.md R161 to R163), said once for a pixel, a
row and a sprite.
-/

namespace Sys2Proof.Machine

/-- A cell read after an XOR at column `x`, row `y`. -/
theorem fbCell_fbXor (f : BitVec 2048) {x y cx cy : Nat} (bit : Bool) (hx : x < 64) (hcx : cx < 64) (hcy : cy < 32) :
    fbCell (fbXor f x y bit) cx cy = (fbCell f cx cy ^^ (bit && decide (cx = x ∧ cy = y))) := by
  have e : (cellIndex x y = cellIndex cx cy) ↔ (cx = x ∧ cy = y) := by
    unfold cellIndex; omega
  cases bit with
  | false => simp [fbXor]
  | true =>
    have hb : cellIndex cx cy < 2048 := by unfold cellIndex; omega
    simp only [fbXor, if_true, fbCell, BitVec.getLsbD_xor, BitVec.getLsbD_twoPow, Bool.true_and]
    congr 1
    by_cases h : cx = x ∧ cy = y
    · simp [h, e.2 h]
      exact hb
    · simp [h, mt e.1 h]

/-- A pixel XORs its own cell. -/
theorem blitPixel_cell (p : Blit) (px py : Nat) (bit : Bool) {cx cy : Nat} (hcx : cx < 64) (hcy : cy < 32) :
    fbCell (blitPixel p px py bit).fb cx cy =
      (fbCell p.fb cx cy ^^ (bit && decide (cx = px % 64 ∧ cy = py % 32))) :=
  fbCell_fbXor p.fb bit (Nat.mod_lt _ (by decide)) hcx hcy

/-- A cell outside the first `k` pixels of a sprite row is unchanged. -/
theorem blitCols_other (p : Blit) (xo py : Nat) (sp : Byte) {k cx cy : Nat} (hcx : cx < 64) (hcy : cy < 32)
    (h : ∀ col, col < k → ¬ (cx = (xo + col) % 64 ∧ cy = py % 32)) :
    fbCell (blitCols p xo py sp k).fb cx cy = fbCell p.fb cx cy := by
  induction k with
  | zero => rfl
  | succ k ih =>
    rw [blitCols, blitPixel_cell _ _ _ _ hcx hcy, ih (fun col hc => h col (by omega))]
    simp [h k (by omega)]

/-- The cell of pixel `col` of a sprite row is XORed with bit `7 - col` of the sprite byte. -/
theorem blitCols_cell (p : Blit) (xo py : Nat) (sp : Byte) {k col : Nat} (hk : k ≤ 8) (hc : col < k) :
    fbCell (blitCols p xo py sp k).fb ((xo + col) % 64) (py % 32) =
      (fbCell p.fb ((xo + col) % 64) (py % 32) ^^ sp.getLsbD (7 - col)) := by
  have h1 : (xo + col) % 64 < 64 := Nat.mod_lt _ (by decide)
  have h2 : py % 32 < 32 := Nat.mod_lt _ (by decide)
  induction k with
  | zero => omega
  | succ k ih =>
    rw [blitCols, blitPixel_cell _ _ _ _ h1 h2]
    by_cases hck : col = k
    · subst hck
      rw [blitCols_other p xo py sp h1 h2 (by intro c hc'; omega)]
      simp
    · have hne : (xo + col) % 64 ≠ (xo + k) % 64 := by omega
      rw [ih (by omega) (by omega)]
      simp [hne]

/-- The collision bit after the first `k` pixels of a sprite row. -/
theorem blitCols_hit (p : Blit) (xo py : Nat) (sp : Byte) {k : Nat} (hk : k ≤ 8) :
    (blitCols p xo py sp k).hit = true ↔
      p.hit = true ∨ ∃ col, col < k ∧ sp.getLsbD (7 - col) = true ∧ fbCell p.fb ((xo + col) % 64) (py % 32) = true := by
  induction k with
  | zero => simp [blitCols]
  | succ k ih =>
    have h1 : (xo + k) % 64 < 64 := Nat.mod_lt _ (by decide)
    have h2 : py % 32 < 32 := Nat.mod_lt _ (by decide)
    simp only [blitCols, blitPixel, Bool.or_eq_true, Bool.and_eq_true]
    rw [ih (by omega), blitCols_other p xo py sp h1 h2 (by intro c hc'; omega)]
    constructor
    · rintro ((h | ⟨c, hc, h⟩) | h)
      · exact .inl h
      · exact .inr ⟨c, by omega, h⟩
      · exact .inr ⟨k, by omega, h⟩
    · rintro (h | ⟨c, hc, h⟩)
      · exact .inl (.inl h)
      · by_cases hck : c = k
        · subst hck; exact .inr h
        · exact .inl (.inr ⟨c, by omega, h⟩)

/-- A cell no pixel of the first `n` sprite rows lands on is unchanged. -/
theorem blitRows_other (m : Memory) (base xo yo : Nat) (p : Blit) {n cx cy : Nat} (hcx : cx < 64) (hcy : cy < 32)
    (h : ∀ row col, row < n → col < 8 → ¬ (cx = (xo + col) % 64 ∧ cy = (yo + row) % 32)) :
    fbCell (blitRows m base xo yo p n).fb cx cy = fbCell p.fb cx cy := by
  induction n with
  | zero => rfl
  | succ n ih =>
    rw [blitRows, blitCols_other _ _ _ _ hcx hcy (fun col hc => h n col (by omega) hc)]
    exact ih (fun row col hr hc => h row col (by omega) hc)

/-- The cell of pixel `col` of row `row` is XORed with bit `7 - col` of the byte at `base + row` (43 R161). -/
theorem blitRows_cell (m : Memory) (base xo yo : Nat) (p : Blit) {n row col : Nat} (hn : n ≤ 32) (hr : row < n)
    (hc : col < 8) :
    fbCell (blitRows m base xo yo p n).fb ((xo + col) % 64) ((yo + row) % 32) =
      (fbCell p.fb ((xo + col) % 64) ((yo + row) % 32) ^^ (m.read (base + row)).getLsbD (7 - col)) := by
  have h1 : (xo + col) % 64 < 64 := Nat.mod_lt _ (by decide)
  have h2 : (yo + row) % 32 < 32 := Nat.mod_lt _ (by decide)
  induction n with
  | zero => omega
  | succ n ih =>
    rw [blitRows]
    by_cases h : row = n
    · subst h
      rw [blitCols_cell _ _ _ _ (by decide) hc, blitRows_other m base xo yo p h1 h2 (by intro r c hr' hc'; omega)]
    · rw [blitCols_other _ _ _ _ h1 h2 (by intro c hc'; omega)]
      exact ih (by omega) (by omega)

/-- The collision bit after `n` rows: some sprite bit 1 met a cell that was on before the draw (43 R163). -/
theorem blitRows_hit (m : Memory) (base xo yo : Nat) (p : Blit) {n : Nat} (hn : n ≤ 32) :
    (blitRows m base xo yo p n).hit = true ↔
      p.hit = true ∨ ∃ row col, row < n ∧ col < 8 ∧ (m.read (base + row)).getLsbD (7 - col) = true ∧
        fbCell p.fb ((xo + col) % 64) ((yo + row) % 32) = true := by
  induction n with
  | zero => simp [blitRows]
  | succ n ih =>
    rw [blitRows, blitCols_hit _ _ _ _ (by decide), ih (by omega)]
    have other : ∀ col, fbCell (blitRows m base xo yo p n).fb ((xo + col) % 64) ((yo + n) % 32) =
        fbCell p.fb ((xo + col) % 64) ((yo + n) % 32) := fun col =>
      blitRows_other m base xo yo p (Nat.mod_lt _ (by decide)) (Nat.mod_lt _ (by decide))
        (by intro r c hr' hc'; omega)
    constructor
    · rintro ((h | ⟨r, c, hr, hc, h⟩) | ⟨c, hc, h1, h2⟩)
      · exact .inl h
      · exact .inr ⟨r, c, by omega, hc, h⟩
      · exact .inr ⟨n, c, by omega, hc, h1, (other c) ▸ h2⟩
    · rintro (h | ⟨r, c, hr, hc, h1, h2⟩)
      · exact .inl (.inl h)
      · by_cases hrn : r = n
        · subst hrn; exact .inr ⟨c, hc, h1, (other c).symm ▸ h2⟩
        · exact .inl (.inr ⟨r, c, by omega, hc, h1, h2⟩)

end Sys2Proof.Machine
end

