-- ==== Sys2Proof/Laws/Words.lean ====
section
/-!
SUPPORT. The fields of a word put together from fields, one lemma per format and field (30_encoding.md R71, R72), and what each
mask of the opcode map keeps (R76).
-/

namespace Sys2Proof

@[simp] theorem fieldOp_nnn (op : Nibble) (nnn : Addr) : fieldOp (op ++ nnn : Word) = op := by
  apply BitVec.eq_of_getLsbD_eq
  intro i hi
  simp only [fieldOp, BitVec.getLsbD_extractLsb', BitVec.getLsbD_append]
  interval_cases i <;> simp

@[simp] theorem fieldNNN_nnn (op : Nibble) (nnn : Addr) : fieldNNN (op ++ nnn : Word) = nnn := by
  apply BitVec.eq_of_getLsbD_eq
  intro i hi
  simp only [fieldNNN, BitVec.getLsbD_extractLsb', BitVec.getLsbD_append]
  interval_cases i <;> simp

@[simp] theorem fieldOp_xkk (op x : Nibble) (kk : Byte) : fieldOp (op ++ x ++ kk : Word) = op := by
  apply BitVec.eq_of_getLsbD_eq
  intro i hi
  simp only [fieldOp, BitVec.getLsbD_extractLsb', BitVec.getLsbD_append]
  interval_cases i <;> simp

@[simp] theorem fieldX_xkk (op x : Nibble) (kk : Byte) : fieldX (op ++ x ++ kk : Word) = x := by
  apply BitVec.eq_of_getLsbD_eq
  intro i hi
  simp only [fieldX, BitVec.getLsbD_extractLsb', BitVec.getLsbD_append]
  interval_cases i <;> simp

@[simp] theorem fieldKK_xkk (op x : Nibble) (kk : Byte) : fieldKK (op ++ x ++ kk : Word) = kk := by
  apply BitVec.eq_of_getLsbD_eq
  intro i hi
  simp only [fieldKK, BitVec.getLsbD_extractLsb', BitVec.getLsbD_append]
  interval_cases i <;> simp

@[simp] theorem fieldOp_xyn (op x y n : Nibble) : fieldOp (op ++ x ++ y ++ n : Word) = op := by
  apply BitVec.eq_of_getLsbD_eq
  intro i hi
  simp only [fieldOp, BitVec.getLsbD_extractLsb', BitVec.getLsbD_append]
  interval_cases i <;> simp

@[simp] theorem fieldX_xyn (op x y n : Nibble) : fieldX (op ++ x ++ y ++ n : Word) = x := by
  apply BitVec.eq_of_getLsbD_eq
  intro i hi
  simp only [fieldX, BitVec.getLsbD_extractLsb', BitVec.getLsbD_append]
  interval_cases i <;> simp

@[simp] theorem fieldY_xyn (op x y n : Nibble) : fieldY (op ++ x ++ y ++ n : Word) = y := by
  apply BitVec.eq_of_getLsbD_eq
  intro i hi
  simp only [fieldY, BitVec.getLsbD_extractLsb', BitVec.getLsbD_append]
  interval_cases i <;> simp

@[simp] theorem fieldN_xyn (op x y n : Nibble) : fieldN (op ++ x ++ y ++ n : Word) = n := by
  apply BitVec.eq_of_getLsbD_eq
  intro i hi
  simp only [fieldN, BitVec.getLsbD_extractLsb', BitVec.getLsbD_append]
  interval_cases i <;> simp

theorem mask_F000 (w : Word) : w &&& 0xF000#16 = fieldOp w ++ 0#12 := by
  apply BitVec.eq_of_getLsbD_eq
  intro i hi
  simp only [fieldOp, BitVec.getLsbD_extractLsb', BitVec.getLsbD_append, BitVec.getLsbD_and]
  interval_cases i <;> simp

theorem mask_F00F (w : Word) : w &&& 0xF00F#16 = fieldOp w ++ 0#8 ++ fieldN w := by
  apply BitVec.eq_of_getLsbD_eq
  intro i hi
  simp only [fieldOp, fieldN, BitVec.getLsbD_extractLsb', BitVec.getLsbD_append, BitVec.getLsbD_and]
  interval_cases i <;> simp

theorem mask_F0FF (w : Word) : w &&& 0xF0FF#16 = fieldOp w ++ 0#4 ++ fieldKK w := by
  apply BitVec.eq_of_getLsbD_eq
  intro i hi
  simp only [fieldOp, fieldKK, BitVec.getLsbD_extractLsb', BitVec.getLsbD_append, BitVec.getLsbD_and]
  interval_cases i <;> simp

/-- The two bytes of a word, put together in memory order, are the word (20 R55, R56). -/
@[simp] theorem wordOfBytes_bytes (w : Word) : wordOfBytes (firstByte w) (secondByte w) = w := by
  apply BitVec.eq_of_getLsbD_eq
  intro i hi
  simp only [wordOfBytes, firstByte, secondByte, BitVec.getLsbD_extractLsb', BitVec.getLsbD_append]
  interval_cases i <;> simp

/-- The list of legal words, over the fields. -/
theorem legalWord_eq (w : Word) : legalWord w =
    if fieldOp w = 0x0#4 then legalGroup0 w
    else if fieldOp w = 0x5#4 ∨ fieldOp w = 0x9#4 then fieldN w == 0x0#4
    else if fieldOp w = 0x8#4 then !([0x8#4, 0x9#4, 0xA#4, 0xB#4, 0xC#4, 0xD#4, 0xF#4].contains (fieldN w))
    else if fieldOp w = 0xE#4 then [0x9E#8, 0xA1#8].contains (fieldKK w)
    else if fieldOp w = 0xF#4 then
      [0x07#8, 0x0A#8, 0x15#8, 0x18#8, 0x1E#8, 0x29#8, 0x33#8, 0x55#8, 0x65#8].contains (fieldKK w)
    else true := rfl

end Sys2Proof
end

