-- ==== Sys2Proof/Laws/PerInstr.lean ====
section
/-!
SUPPORT. Per instruction, about its word: the word is legal by the list of 30_encoding.md R78, and it belongs to the row of
the opcode map R76 that its instruction stands for.
-/

namespace Sys2Proof.Laws.Encoding

/-- The instruction's word is legal (30 R78) and matches its row (30 R75, R76). -/
def Statement (i : Instr) : Prop :=
  legalWord (encode i) = true ∧ (rowOf i).matchesWord (encode i) = true

/-- A word in one of the field formats is legal and matches a row as soon as its fields say so. -/
theorem of_fields {i : Instr}
    (h : legalWord (encode i) = true) (hm : encode i &&& (rowOf i).mask = (rowOf i).bits) : Statement i :=
  ⟨h, by simp [OpRow.matchesWord, hm]⟩

theorem cls : Statement .cls := of_fields (by decide) (by decide)

theorem ret : Statement .ret := of_fields (by decide) (by decide)

theorem jp (nnn : Addr) : Statement (.jp nnn) :=
  of_fields (by simp [encode, legalWord_eq]) (by simp [encode, rowOf, mask_F000])

theorem call (nnn : Addr) : Statement (.call nnn) :=
  of_fields (by simp [encode, legalWord_eq]) (by simp [encode, rowOf, mask_F000])

theorem seImm (x : Nibble) (kk : Byte) : Statement (.seImm x kk) :=
  of_fields (by simp [encode, legalWord_eq]) (by simp [encode, rowOf, mask_F000])

theorem sneImm (x : Nibble) (kk : Byte) : Statement (.sneImm x kk) :=
  of_fields (by simp [encode, legalWord_eq]) (by simp [encode, rowOf, mask_F000])

theorem seReg (x : Nibble) (y : Nibble) : Statement (.seReg x y) :=
  of_fields (by simp [encode, legalWord_eq]) (by simp [encode, rowOf, mask_F00F])

theorem ldImm (x : Nibble) (kk : Byte) : Statement (.ldImm x kk) :=
  of_fields (by simp [encode, legalWord_eq]) (by simp [encode, rowOf, mask_F000])

theorem addImm (x : Nibble) (kk : Byte) : Statement (.addImm x kk) :=
  of_fields (by simp [encode, legalWord_eq]) (by simp [encode, rowOf, mask_F000])

theorem ldReg (x : Nibble) (y : Nibble) : Statement (.ldReg x y) :=
  of_fields (by simp [encode, legalWord_eq]) (by simp [encode, rowOf, mask_F00F])

theorem orReg (x : Nibble) (y : Nibble) : Statement (.orReg x y) :=
  of_fields (by simp [encode, legalWord_eq]) (by simp [encode, rowOf, mask_F00F])

theorem andReg (x : Nibble) (y : Nibble) : Statement (.andReg x y) :=
  of_fields (by simp [encode, legalWord_eq]) (by simp [encode, rowOf, mask_F00F])

theorem xorReg (x : Nibble) (y : Nibble) : Statement (.xorReg x y) :=
  of_fields (by simp [encode, legalWord_eq]) (by simp [encode, rowOf, mask_F00F])

theorem addReg (x : Nibble) (y : Nibble) : Statement (.addReg x y) :=
  of_fields (by simp [encode, legalWord_eq]) (by simp [encode, rowOf, mask_F00F])

theorem subReg (x : Nibble) (y : Nibble) : Statement (.subReg x y) :=
  of_fields (by simp [encode, legalWord_eq]) (by simp [encode, rowOf, mask_F00F])

theorem shr (x : Nibble) (y : Nibble) : Statement (.shr x y) :=
  of_fields (by simp [encode, legalWord_eq]) (by simp [encode, rowOf, mask_F00F])

theorem subnReg (x : Nibble) (y : Nibble) : Statement (.subnReg x y) :=
  of_fields (by simp [encode, legalWord_eq]) (by simp [encode, rowOf, mask_F00F])

theorem shl (x : Nibble) (y : Nibble) : Statement (.shl x y) :=
  of_fields (by simp [encode, legalWord_eq]) (by simp [encode, rowOf, mask_F00F])

theorem sneReg (x : Nibble) (y : Nibble) : Statement (.sneReg x y) :=
  of_fields (by simp [encode, legalWord_eq]) (by simp [encode, rowOf, mask_F00F])

theorem ldIndex (nnn : Addr) : Statement (.ldIndex nnn) :=
  of_fields (by simp [encode, legalWord_eq]) (by simp [encode, rowOf, mask_F000])

theorem jpV0 (nnn : Addr) : Statement (.jpV0 nnn) :=
  of_fields (by simp [encode, legalWord_eq]) (by simp [encode, rowOf, mask_F000])

theorem rnd (x : Nibble) (kk : Byte) : Statement (.rnd x kk) :=
  of_fields (by simp [encode, legalWord_eq]) (by simp [encode, rowOf, mask_F000])

theorem drw (x : Nibble) (y : Nibble) (n : Nibble) : Statement (.drw x y n) :=
  of_fields (by simp [encode, legalWord_eq]) (by simp [encode, rowOf, mask_F000])

theorem skp (x : Nibble) : Statement (.skp x) :=
  of_fields (by simp [encode, legalWord_eq]) (by simp [encode, rowOf, mask_F0FF])

theorem sknp (x : Nibble) : Statement (.sknp x) :=
  of_fields (by simp [encode, legalWord_eq]) (by simp [encode, rowOf, mask_F0FF])

theorem readDelay (x : Nibble) : Statement (.readDelay x) :=
  of_fields (by simp [encode, legalWord_eq]) (by simp [encode, rowOf, mask_F0FF])

theorem waitKey (x : Nibble) : Statement (.waitKey x) :=
  of_fields (by simp [encode, legalWord_eq]) (by simp [encode, rowOf, mask_F0FF])

theorem setDelay (x : Nibble) : Statement (.setDelay x) :=
  of_fields (by simp [encode, legalWord_eq]) (by simp [encode, rowOf, mask_F0FF])

theorem setSound (x : Nibble) : Statement (.setSound x) :=
  of_fields (by simp [encode, legalWord_eq]) (by simp [encode, rowOf, mask_F0FF])

theorem addIndex (x : Nibble) : Statement (.addIndex x) :=
  of_fields (by simp [encode, legalWord_eq]) (by simp [encode, rowOf, mask_F0FF])

theorem ldFont (x : Nibble) : Statement (.ldFont x) :=
  of_fields (by simp [encode, legalWord_eq]) (by simp [encode, rowOf, mask_F0FF])

theorem storeBcd (x : Nibble) : Statement (.storeBcd x) :=
  of_fields (by simp [encode, legalWord_eq]) (by simp [encode, rowOf, mask_F0FF])

theorem storeRegs (x : Nibble) : Statement (.storeRegs x) :=
  of_fields (by simp [encode, legalWord_eq]) (by simp [encode, rowOf, mask_F0FF])

theorem loadRegs (x : Nibble) : Statement (.loadRegs x) :=
  of_fields (by simp [encode, legalWord_eq]) (by simp [encode, rowOf, mask_F0FF])

end Sys2Proof.Laws.Encoding
end

