-- ==== Sys2Proof/Laws/Step.lean ====
section
/-!
SUPPORT. What a step can do (45_host_commands.md R192), said once; every claim about steps starts from these cases.
-/

namespace Sys2Proof.Machine

/-- When a step is idle: a latched fault or a key wait. -/
theorem State.idle_iff (s : State) : s.idle = true ↔ s.fault ≠ none ∨ ∃ r, s.run = .waitingForKey r := by
  unfold State.idle
  cases hf : s.fault <;> cases hr : s.run <;> simp

/-- When a step is not idle. -/
theorem State.not_idle_iff (s : State) : s.idle = false ↔ s.fault = none ∧ s.run = .running := by
  unfold State.idle
  cases hf : s.fault <;> cases hr : s.run <;> simp

/-- The four things a step can do, and there is no fifth. -/
theorem step_cases (s : State) :
    (s.idle = true ∧ step s = .next s) ∨
    (s.idle = false ∧ s.fetchable = false ∧ step s = .next s.pcFault) ∨
    (s.idle = false ∧ s.fetchable = true ∧
      ∃ w, decode s.fetchWord = .unknown w ∧ step s = .next (s.unknownFault w)) ∨
    (s.idle = false ∧ s.fetchable = true ∧
      ∃ i, decode s.fetchWord = .instr i ∧ step s = exec i s.advance) := by
  unfold step
  cases hi : s.idle
  · cases hf : s.fetchable
    · exact .inr (.inl ⟨rfl, rfl, rfl⟩)
    · cases hd : decode s.fetchWord with
      | instr i => exact .inr (.inr (.inr ⟨rfl, rfl, i, rfl, rfl⟩))
      | unknown w => exact .inr (.inr (.inl ⟨rfl, rfl, w, rfl, rfl⟩))
  · exact .inl ⟨rfl, rfl⟩

end Sys2Proof.Machine
end

