-- ==== Sys2Proof/Tests/Slice0.lean ====
section
/-!
SUPPORT. Tests. Every expected value is written out from spec/: the encodings of 30_encoding.md R76, the vectors of
95_test_vectors.md (named in each comment), the illegal words of R78. After them, one witness for each statement that has
hypotheses.
-/

namespace Sys2Proof.Tests

open Sys2Proof.Machine

/-! ## Words: legality and decoding -/

/-- 95 section 2.3: the check of each group refuses an ill-formed word. -/
theorem test_wellformed_group0 : legalWord 0x0123#16 = false ∧ legalWord 0x00E1#16 = false := by decide
theorem test_wellformed_group5 : legalWord 0x5121#16 = false := by decide
theorem test_wellformed_group8 : legalWord 0x8008#16 = false ∧ legalWord 0x800F#16 = false := by decide
theorem test_wellformed_group9 : legalWord 0x912F#16 = false := by decide
theorem test_wellformed_groupE : legalWord 0xE09F#16 = false := by decide
theorem test_wellformed_groupF : legalWord 0xF030#16 = false ∧ legalWord 0xFFFF#16 = false := by decide
/-- 95 section 2.3: the nearest accepted neighbours. -/
theorem test_wellformed_accepts :
    [0x00E0#16, 0x00EE#16, 0x5120#16, 0x9120#16, 0x8007#16, 0x800E#16, 0xE09E#16, 0xE0A1#16, 0xF01E#16, 0xF033#16,
      0xF065#16].all legalWord = true := by decide

/-- 95 section 2.3: the listed illegal words decode to nothing. -/
theorem test_decode_illegal :
    [0x0000#16, 0x00E1#16, 0x00FE#16, 0x0123#16, 0x5121#16, 0x912F#16, 0x8008#16, 0x800F#16, 0x801D#16].all
      (fun w => decode w = .unknown w) = true := by decide
theorem test_decode_illegal_EF :
    [0xE09F#16, 0xE000#16, 0xF000#16, 0xF01F#16, 0xF030#16, 0xF075#16, 0xF085#16, 0xFFFF#16].all
      (fun w => decode w = .unknown w) = true := by decide

/-! Each constructor, by a word written bit by bit from 30 R76 (pattern in the name of the field values). -/
theorem test_decode_cls : decode 0b0000000011100000#16 = .instr .cls := by decide
theorem test_decode_ret : decode 0b0000000011101110#16 = .instr .ret := by decide
theorem test_decode_jp : decode 0b0001001000000100#16 = .instr (.jp 0x204#12) := by decide
theorem test_decode_call : decode 0b0010101010111100#16 = .instr (.call 0xABC#12) := by decide
theorem test_decode_seImm : decode 0b0011001100101010#16 = .instr (.seImm 0x3#4 0x2A#8) := by decide
theorem test_decode_sneImm : decode 0b0100001100101011#16 = .instr (.sneImm 0x3#4 0x2B#8) := by decide
theorem test_decode_seReg : decode 0b0101000100100000#16 = .instr (.seReg 0x1#4 0x2#4) := by decide
theorem test_decode_ldImm : decode 0b0110111101000010#16 = .instr (.ldImm 0xF#4 0x42#8) := by decide
theorem test_decode_addImm : decode 0b0111000111111111#16 = .instr (.addImm 0x1#4 0xFF#8) := by decide
theorem test_decode_ldReg : decode 0b1000000100100000#16 = .instr (.ldReg 0x1#4 0x2#4) := by decide
theorem test_decode_orReg : decode 0b1000000100100001#16 = .instr (.orReg 0x1#4 0x2#4) := by decide
theorem test_decode_andReg : decode 0b1000000100100010#16 = .instr (.andReg 0x1#4 0x2#4) := by decide
theorem test_decode_xorReg : decode 0b1000000100100011#16 = .instr (.xorReg 0x1#4 0x2#4) := by decide
theorem test_decode_addReg : decode 0b1000111100010100#16 = .instr (.addReg 0xF#4 0x1#4) := by decide
theorem test_decode_subReg : decode 0b1000000100100101#16 = .instr (.subReg 0x1#4 0x2#4) := by decide
theorem test_decode_shr : decode 0b1000000010100110#16 = .instr (.shr 0x0#4 0xA#4) := by decide
theorem test_decode_subnReg : decode 0b1000000100100111#16 = .instr (.subnReg 0x1#4 0x2#4) := by decide
theorem test_decode_shl : decode 0b1000111111111110#16 = .instr (.shl 0xF#4 0xF#4) := by decide
theorem test_decode_sneReg : decode 0b1001000100100000#16 = .instr (.sneReg 0x1#4 0x2#4) := by decide
theorem test_decode_ldIndex : decode 0b1010001011110000#16 = .instr (.ldIndex 0x2F0#12) := by decide
theorem test_decode_jpV0 : decode 0b1011001100000000#16 = .instr (.jpV0 0x300#12) := by decide
theorem test_decode_rnd : decode 0b1100001111110000#16 = .instr (.rnd 0x3#4 0xF0#8) := by decide
theorem test_decode_drw : decode 0b1101000100100101#16 = .instr (.drw 0x1#4 0x2#4 0x5#4) := by decide
theorem test_decode_skp : decode 0b1110000110011110#16 = .instr (.skp 0x1#4) := by decide
theorem test_decode_sknp : decode 0b1110000110100001#16 = .instr (.sknp 0x1#4) := by decide
theorem test_decode_readDelay : decode 0b1111010100000111#16 = .instr (.readDelay 0x5#4) := by decide
theorem test_decode_waitKey : decode 0b1111001100001010#16 = .instr (.waitKey 0x3#4) := by decide
theorem test_decode_setDelay : decode 0b1111010100010101#16 = .instr (.setDelay 0x5#4) := by decide
theorem test_decode_setSound : decode 0b1111010100011000#16 = .instr (.setSound 0x5#4) := by decide
theorem test_decode_addIndex : decode 0b1111001000011110#16 = .instr (.addIndex 0x2#4) := by decide
theorem test_decode_ldFont : decode 0b1111000000101001#16 = .instr (.ldFont 0x0#4) := by decide
theorem test_decode_storeBcd : decode 0b1111001100110011#16 = .instr (.storeBcd 0x3#4) := by decide
theorem test_decode_storeRegs : decode 0b1111001001010101#16 = .instr (.storeRegs 0x2#4) := by decide
theorem test_decode_loadRegs : decode 0b1111001001100101#16 = .instr (.loadRegs 0x2#4) := by decide
/-- Table numbering: bit 0 is the least significant bit of the word. -/
theorem test_decodeTableWord : decodeTableWord 16 0x6005 = some (.ldImm 0x0#4 0x05#8) := by decide

/-! ## Steps -/

/-- A running state with the word at 0x200 (the convention of 95). -/
def at200 (w : Word) (s : State) : State := s.withFetchWord 16 w.toNat

/-- The state with bytes stored from an address on. -/
def withBytes (a : Nat) (ws : List Byte) (s : State) : State := s.setMem (s.mem.writeBytes a ws)

/-- The state with V0 = a and V1 = b. -/
def v01 (a b : Byte) : State := (State.reset.setReg 0x0#4 a).setReg 0x1#4 b

/-- The state with a stack depth. -/
def withDepth (d : Fin 17) (s : State) : State := { s with sp := d }

/-- What a field reads after a step, if the step answers a next state. -/
def after {α : Type} (s : State) (f : State → α) : Option α :=
  match step s with
  | .next t => some (f t)
  | .fault _ => none
  | .refused _ => none

/-- The cells of a list of (row, column), written without the model's operations. -/
def cells (l : List (Nat × Nat)) : BitVec 2048 := l.foldl (fun f p => f ||| (1#2048 <<< (p.1 * 64 + p.2))) 0#2048

/-- V0, VF and pc. -/
def v0FPc (t : State) : Byte × Byte × Word := (t.reg 0x0#4, t.reg 0xF#4, t.pc)

/-- S9, first step. -/
theorem test_ldImm : after (at200 0x6005#16 State.reset) v0FPc = some (0x05#8, 0x00#8, 0x0202#16) := by decide
/-- A2: no carry flag. -/
theorem test_addImm : after (at200 0x7001#16 (v01 0xFF#8 0x00#8)) v0FPc = some (0x00#8, 0x00#8, 0x0202#16) := by
  decide
/-- 40 R102, example. -/
theorem test_ldReg : after (at200 0x8010#16 (v01 0x00#8 0x7A#8)) v0FPc = some (0x7A#8, 0x00#8, 0x0202#16) := by
  decide
/-- A5, A6, A7: VF stays 01. -/
theorem test_orReg : after (at200 0x8011#16 ((v01 0x0F#8 0xF0#8).setReg 0xF#4 0x01#8)) v0FPc =
    some (0xFF#8, 0x01#8, 0x0202#16) := by decide
theorem test_andReg : after (at200 0x8012#16 ((v01 0x3C#8 0x0F#8).setReg 0xF#4 0x01#8)) v0FPc =
    some (0x0C#8, 0x01#8, 0x0202#16) := by decide
theorem test_xorReg : after (at200 0x8013#16 ((v01 0xFF#8 0x0F#8).setReg 0xF#4 0x01#8)) v0FPc =
    some (0xF0#8, 0x01#8, 0x0202#16) := by decide
/-- S2. -/
theorem test_addReg : after (at200 0x8014#16 (v01 0xFF#8 0x01#8)) v0FPc = some (0x00#8, 0x01#8, 0x0202#16) := by
  decide
/-- A12: x = F, the result stays. -/
theorem test_addReg_VF : after (at200 0x8F14#16 ((v01 0x00#8 0x20#8).setReg 0xF#4 0xF0#8)) v0FPc =
    some (0x00#8, 0x10#8, 0x0202#16) := by decide
/-- S3. -/
theorem test_subReg : after (at200 0x8015#16 (v01 0x01#8 0x02#8)) v0FPc = some (0xFF#8, 0x00#8, 0x0202#16) := by
  decide
/-- A15: equal operands do not borrow. -/
theorem test_subReg_equal : after (at200 0x8015#16 (v01 0x05#8 0x05#8)) v0FPc = some (0x00#8, 0x01#8, 0x0202#16) := by
  decide
/-- S4. -/
theorem test_shr : after (at200 0x8006#16 (v01 0x03#8 0x00#8)) v0FPc = some (0x01#8, 0x01#8, 0x0202#16) := by
  decide
/-- A27: x = F, the result, not the flag. -/
theorem test_shr_VF : after (at200 0x8FF6#16 (State.reset.setReg 0xF#4 0x06#8)) v0FPc =
    some (0x00#8, 0x03#8, 0x0202#16) := by decide
/-- A20, A21. -/
theorem test_subnReg : after (at200 0x8017#16 (v01 0x02#8 0x01#8)) v0FPc = some (0xFF#8, 0x00#8, 0x0202#16) := by
  decide
theorem test_subnReg_noBorrow : after (at200 0x8017#16 (v01 0x01#8 0x03#8)) v0FPc =
    some (0x02#8, 0x01#8, 0x0202#16) := by decide
/-- A28. -/
theorem test_shl : after (at200 0x800E#16 (v01 0x81#8 0x00#8)) v0FPc = some (0x02#8, 0x01#8, 0x0202#16) := by
  decide
/-- A32: x = F. -/
theorem test_shl_VF : after (at200 0x8FFE#16 (State.reset.setReg 0xF#4 0x81#8)) v0FPc =
    some (0x00#8, 0x02#8, 0x0202#16) := by decide
/-- A34: kk = 0 gives 0 whatever the draw. -/
theorem test_rnd_zero (s : State) : ∃ t, exec (.rnd 0x0#4 0x00#8) s = .next t ∧ t.reg 0x0#4 = 0x00#8 :=
  ⟨_, rfl, by simp⟩
theorem test_rnd_counts : after (at200 0xC00F#16 State.reset) (fun t => (t.draws, t.pc)) = some (1, 0x0202#16) := by
  decide

/-- B1. -/
theorem test_jp : after (at200 0x1204#16 State.reset) (·.pc) = some 0x0204#16 := by decide
/-- B6: not masked. -/
theorem test_jpV0 : after (at200 0xBFFF#16 (v01 0xFF#8 0x00#8)) (·.pc) = some 0x10FE#16 := by decide
/-- B8: the sixteenth call succeeds. -/
theorem test_call : after (at200 0x2300#16 (withDepth 15 State.reset)) (fun t => (t.stackSlot 15, t.sp, t.pc)) =
    some (0x0202#16, 16, 0x0300#16) := by decide
/-- B9. -/
theorem test_call_overflow : after (at200 0x2300#16 (withDepth 16 State.reset)) (fun t => (t.fault, t.sp, t.pc)) =
    some (some ⟨.stackOverflow, some 0x2300#16, 0x0200#16⟩, 16, 0x0202#16) := by decide
/-- B11. -/
theorem test_ret : after (at200 0x00EE#16 { State.reset with
      pc := 0x0300#16, sp := 1, stack := State.reset.stack.set 0 0x0202#16 }) (fun t => (t.sp, t.pc, t.stackSlot 0)) =
    some (0, 0x0202#16, 0x0202#16) := by decide
/-- B12. -/
theorem test_ret_underflow : after (at200 0x00EE#16 (State.reset.setPc 0x0300#16)) (fun t => (t.fault, t.sp, t.pc)) =
    some (some ⟨.stackUnderflow, some 0x00EE#16, 0x0300#16⟩, 0, 0x0302#16) := by decide
/-- B14, B15. -/
theorem test_seImm : after (at200 0x332A#16 (State.reset.setReg 0x3#4 0x2A#8)) (·.pc) = some 0x0204#16 ∧
    after (at200 0x332B#16 (State.reset.setReg 0x3#4 0x2A#8)) (·.pc) = some 0x0202#16 := by decide
theorem test_sneImm : after (at200 0x432A#16 (State.reset.setReg 0x3#4 0x2A#8)) (·.pc) = some 0x0202#16 ∧
    after (at200 0x432B#16 (State.reset.setReg 0x3#4 0x2A#8)) (·.pc) = some 0x0204#16 := by decide
/-- B16, B18. -/
theorem test_seReg : after (at200 0x5010#16 (v01 0x10#8 0x10#8)) (·.pc) = some 0x0204#16 ∧
    after (at200 0x5010#16 (v01 0x10#8 0x11#8)) (·.pc) = some 0x0202#16 := by decide
theorem test_sneReg : after (at200 0x9010#16 (v01 0x10#8 0x11#8)) (·.pc) = some 0x0204#16 ∧
    after (at200 0x9010#16 (v01 0x10#8 0x10#8)) (·.pc) = some 0x0202#16 := by decide

/-- M2. -/
theorem test_ldIndex : after (at200 0xAFFF#16 State.reset) (·.i) = some 0x0FFF#16 := by decide
/-- M4: wraps, VF stays 00. -/
theorem test_addIndex : after (at200 0xF01E#16 ((v01 0x01#8 0x00#8).setIndex 0xFFFF#16))
    (fun t => (t.i, t.reg 0xF#4)) = some (0x0000#16, 0x00#8) := by decide
/-- M7: the low nibble. -/
theorem test_ldFont : after (at200 0xF029#16 (v01 0x1A#8 0x00#8)) (·.i) = some 0x0032#16 := by decide
/-- M10. -/
theorem test_storeBcd : after (at200 0xF333#16 ((State.reset.setReg 0x3#4 0x9C#8).setIndex 0x0300#16))
    (fun t => (t.byteAt 0x300, t.byteAt 0x301, t.byteAt 0x302, t.i)) = some (0x01#8, 0x05#8, 0x06#8, 0x0300#16) := by
  decide
/-- M15. -/
theorem test_storeBcd_range : after (at200 0xF033#16 ((v01 0x64#8 0x00#8).setIndex 0x0FFE#16))
    (fun t => (t.fault, t.pc, t.byteAt 0xFFE)) =
    some (some ⟨.addressOutOfRange, some 0xF033#16, 0x0200#16⟩, 0x0202#16, 0x00#8) := by decide
/-- M17. -/
theorem test_storeRegs : after (at200 0xF055#16 ((v01 0xAB#8 0x00#8).setIndex 0x0FFF#16))
    (fun t => (t.byteAt 0xFFF, t.i, t.fault)) = some (0xAB#8, 0x1000#16, none) := by decide
/-- M18. -/
theorem test_storeRegs_range : after (at200 0xF155#16 ((v01 0xAB#8 0xCD#8).setIndex 0x0FFF#16))
    (fun t => (t.fault, t.byteAt 0xFFF, t.i)) =
    some (some ⟨.addressOutOfRange, some 0xF155#16, 0x0200#16⟩, 0x00#8, 0x0FFF#16) := by decide
/-- M23: sixteen bytes of the default font. -/
theorem test_loadRegs : after (at200 0xFF65#16 State.reset) (fun t => (t.v, t.i)) =
    some (#v[0xF0#8, 0x90#8, 0x90#8, 0x90#8, 0xF0#8, 0x20#8, 0x60#8, 0x20#8, 0x20#8, 0x70#8, 0xF0#8, 0x10#8, 0xF0#8,
      0x80#8, 0xF0#8, 0xF0#8], 0x0010#16) := by decide
/-- M20: V3 stays. -/
theorem test_loadRegs_bound : after (at200 0xF265#16 (withBytes 0x400 [0x11#8, 0x22#8, 0x33#8, 0x44#8]
      ((State.reset.setReg 0x3#4 0x99#8).setIndex 0x0400#16)))
    (fun t => (t.reg 0x0#4, t.reg 0x2#4, t.reg 0x3#4, t.i)) = some (0x11#8, 0x33#8, 0x99#8, 0x0403#16) := by
  decide

/-- DS14. -/
theorem test_cls : after (at200 0x00E0#16 { State.reset with fb := cells [(0, 0), (31, 63)] })
    (fun t => (t.fb, t.redrawPending)) = some (0#2048, true) := by decide +kernel
/-- DS5: horizontal and vertical wrap of large origins. -/
theorem test_drw_wrap : after (at200 0xD011#16 (withBytes 0x300 [0xFF#8] ((v01 0xFC#8 0xFF#8).setIndex 0x0300#16)))
    (fun t => (t.fb, t.reg 0xF#4, t.redrawPending)) =
    some (cells [(31, 60), (31, 61), (31, 62), (31, 63), (31, 0), (31, 1), (31, 2), (31, 3)], 0x00#8, true) := by
  decide +kernel
/-- DS10: a collision; one cell turns on, one off. -/
theorem test_drw_collision : after (at200 0xD011#16 (withBytes 0x300 [0xC0#8]
      { State.reset with fb := cells [(0, 1)], i := 0x0300#16 }))
    (fun t => (t.fb, t.reg 0xF#4)) = some (cells [(0, 0)], 0x01#8) := by decide +kernel

/-- K1, K2, K3. -/
theorem test_readDelay : after (at200 0xF507#16 (State.reset.setDT 0x3C#8)) (·.reg 0x5#4) = some 0x3C#8 := by
  decide
theorem test_setDelay : after (at200 0xF515#16 (State.reset.setReg 0x5#4 0x3C#8)) (·.dt) = some 0x3C#8 := by
  decide
theorem test_setSound : after (at200 0xF518#16 (State.reset.setReg 0x5#4 0x02#8)) (·.st) = some 0x02#8 := by
  decide
/-- K6, K7. -/
theorem test_skp : after (at200 0xE09E#16 ((v01 0x15#8 0x00#8).setKeyState 0x5#4 true)) (·.pc) = some 0x0204#16 := by
  decide
theorem test_sknp : after (at200 0xE0A1#16 ((v01 0x05#8 0x00#8).setKeyState 0x5#4 true)) (·.pc) = some 0x0202#16 := by
  decide
/-- K9: a held key does not satisfy the wait. -/
theorem test_waitKey : after (at200 0xF30A#16 (State.reset.setKeyState 0x7#4 true))
    (fun t => (t.run, t.reg 0x3#4, t.pc)) = some (.waitingForKey 0x3#4, 0x00#8, 0x0202#16) := by decide

/-- B23, B24: the fetch bound, and an odd pc. -/
theorem test_fetch_bound : after (State.reset.setPc 0x0FFF#16) (fun t => (t.fault, t.pc)) =
    some (some ⟨.pcOutOfRange, none, 0x0FFF#16⟩, 0x0FFF#16) := by decide
theorem test_fetch_odd : after (at200 0x6005#16 (State.reset.setPc 0x0201#16)) v0FPc =
    some (0x05#8, 0x00#8, 0x0203#16) := by decide
/-- 95 section 2.3: `0000`, what empty memory holds, is no instruction. -/
theorem test_unknown : after State.reset (fun t => (t.fault, t.pc)) =
    some (some ⟨.unknownOpcode, some 0x0000#16, 0x0200#16⟩, 0x0202#16) := by decide

/-! ## Commands -/

/-- H1, first tick: ST from 1 to 0. -/
theorem test_tick : (runCommand defaultFont .tickTimers { State.reset with dt := 0x02#8, st := 0x01#8 }).2 = .toneStop true ∧
    (runCommand defaultFont .tickTimers { State.reset with dt := 0x02#8, st := 0x01#8 }).1.dt = 0x01#8 := by decide
/-- H3, third command: the edge ends the wait. -/
theorem test_setKey : (cmdSetKey 0x7#4 true (State.reset.setRun (.waitingForKey 0x3#4))).reg 0x3#4 = 0x07#8 ∧
    (cmdSetKey 0x7#4 true (State.reset.setRun (.waitingForKey 0x3#4))).run = .running := by decide
/-- H3, first command: no edge, no change. -/
theorem test_setKey_noEdge :
    (cmdSetKey 0x7#4 true ((State.reset.setKeyState 0x7#4 true).setRun (.waitingForKey 0x3#4))).run =
      .waitingForKey 0x3#4 := by decide
/-- 70 R242: the launch state of P5's program. -/
theorem test_launch : (State.launch defaultFont [0x22#8, 0x00#8]).byteAt 0x200 = 0x22#8 ∧
    after (State.launch defaultFont [0x22#8, 0x00#8]) (fun t => (t.stackSlot 0, t.sp, t.pc)) =
      some (0x0202#16, 1, 0x0200#16) := by decide

/-- 10 R24: an engine with another FONT, all 0xFF, holds that table, and zero above it. -/
theorem test_font_parameter : ((cmdInitialize (Vector.replicate 80 0xFF#8) 0x0200#16 State.reset).byteAt 0x04F,
    (cmdInitialize (Vector.replicate 80 0xFF#8) 0x0200#16 State.reset).byteAt 0x050) = (0xFF#8, 0x00#8) := by
  simp [cmdInitialize, State.byteAt, Memory.read_loadFont]

/-! ## Witnesses: each statement's hypotheses are met, clause by clause, at a boundary where there is one -/

theorem witness_EncodeOfDecode : decode 0x80A6#16 = .instr (.shr 0x0#4 0xA#4) := by decide
theorem witness_DecodeAgreesWithMap : decode 0x9120#16 = .instr (.sneReg 0x1#4 0x2#4) ∧
    decode 0x912F#16 = .unknown 0x912F#16 := by decide

/-- A running engine with the word at 0xFFE, the last fetchable address. -/
def atEnd (w : Word) (s : State) : State := at200 w (s.setPc 0x0FFE#16)

theorem witness_StepRunsDecodedInstruction : ∃ s : State, s.fault = none ∧ s.run = .running ∧ s.pc.toNat ≤ 0xFFE ∧
    decode (s.byteAt s.pc.toNat ++ s.byteAt (s.pc.toNat + 1)) = .instr (.call 0xABC#12) :=
  ⟨atEnd 0x2ABC#16 State.reset, by decide⟩
theorem witness_StepIdleChangesNothing_faulted : ∃ s : State, s.fault ≠ none :=
  ⟨State.reset.latch ⟨.stackUnderflow, some 0x00EE#16, 0x0300#16⟩, by decide⟩
theorem witness_StepIdleChangesNothing_waiting : ∃ s : State, ∃ r, s.run = .waitingForKey r :=
  ⟨State.reset.setRun (.waitingForKey 0x3#4), 0x3#4, rfl⟩
theorem witness_StepPcOutOfRange : ∃ s : State, s.fault = none ∧ s.run = .running ∧ 0xFFE < s.pc.toNat :=
  ⟨State.reset.setPc 0x0FFF#16, by decide⟩
theorem witness_StepUnknownOpcode : ∃ s : State, s.fault = none ∧ s.run = .running ∧ s.pc.toNat ≤ 0xFFE ∧
    legalWord s.fetchWord = false := ⟨atEnd 0x5121#16 State.reset, by decide⟩
theorem witness_PlacedWordRuns : ∃ (s : State) (w : Word) (i : Instr), s.pc.toNat ≤ 0xFFE ∧
    decodeTableWord 16 w.toNat = some i :=
  ⟨State.reset.setPc 0x0FFE#16, 0x6005#16, .ldImm 0x0#4 0x05#8, by decide⟩
theorem witness_CanonicalMemoriesAreEqualData : ∃ m m' : Memory, m.wf = true ∧ m'.wf = true ∧
    ∀ a, a ≤ 0xFFF → m.read a = m'.read a :=
  ⟨[(0x300, 0x01#8), (0xFFF, 0x02#8)], [(0x300, 0x01#8), (0xFFF, 0x02#8)], by decide, by decide,
    fun _ _ => rfl⟩
theorem witness_StepKeepsMemoryCanonical : ∃ s t : State, MemoryCanonical s ∧ step s = .next t :=
  ⟨State.reset, State.reset.unknownFault 0x0000#16, rfl, rfl⟩
theorem witness_StepKeepsFaultEvidence : ∃ s t : State, FaultsAreEvidenced s ∧ step s = .next t :=
  ⟨State.reset, State.reset.unknownFault 0x0000#16, (by intro r h; cases h), rfl⟩
theorem witness_ReachableStatesMeetInvariants :
    Reachable defaultFont (runCommand defaultFont .step (State.reset.initialized defaultFont 0x0200#16)).1 :=
  .command _ _ (.initialized _)
theorem witness_InstructionsWriteOnlyTheirElements : ∃ (i : Instr) (s t : State), exec i s = .next t :=
  ⟨.cls, State.reset, _, rfl⟩
theorem witness_InstructionsWriteOnlyTheirRegisters : ∃ (i : Instr) (s t : State) (r : Nibble), exec i s = .next t ∧
    writesReg r i = false := ⟨.addReg 0x0#4 0x1#4, State.reset, _, 0xE#4, rfl, by decide⟩
theorem witness_EachInstructionRaisesOnlyItsFault : ∃ (s t : State), exec .ret s = .next t ∧ t.fault ≠ s.fault :=
  ⟨State.reset, State.reset.latch ⟨.stackUnderflow, some 0x00EE#16, 0x01FE#16⟩, rfl, by decide⟩

theorem witness_AddRegSetsCarry : ∃ x r : Nibble, x ≠ 0xF#4 ∧ r ≠ x ∧ r ≠ 0xF#4 := ⟨0xE#4, 0x0#4, by decide⟩
theorem witness_SubRegSetsNotBorrow : ∃ x r : Nibble, x ≠ 0xF#4 ∧ r ≠ x ∧ r ≠ 0xF#4 := witness_AddRegSetsCarry
theorem witness_SubnRegSetsNotBorrow : ∃ x r : Nibble, x ≠ 0xF#4 ∧ r ≠ x ∧ r ≠ 0xF#4 := witness_AddRegSetsCarry
theorem witness_ShiftsMoveOneBit : ∃ x r : Nibble, x ≠ 0xF#4 ∧ r ≠ x ∧ r ≠ 0xF#4 := witness_AddRegSetsCarry
theorem witness_JpJumps_end : ∃ (nnn : Addr) (s : State), nnn = 0xFFF#12 ∧ s.fault = none ∧ s.run = .running :=
  ⟨0xFFF#12, State.reset, rfl, rfl, rfl⟩
theorem witness_JpJumps_self : ∃ (nnn : Addr) (s : State), nnn.toNat = (s.pc - 2#16).toNat :=
  ⟨0x200#12, State.reset.advance, by decide⟩
theorem witness_CallPushesAndJumps : ∃ s : State, s.sp.val < 16 := ⟨withDepth 15 State.reset, by decide⟩
theorem witness_RetPops : ∃ (s : State) (k : Fin 16), s.sp.val = k.val + 1 := ⟨withDepth 16 State.reset, 15, by decide⟩
theorem witness_RetUndoesCall : ∃ (nnn : Addr) (s t u : State), s.sp.val < 16 ∧ exec (.call nnn) s = .next t ∧
    u.sp = t.sp ∧ u.stack = t.stack := ⟨0x300#12, State.reset, _, _, by decide, rfl, rfl, rfl⟩
theorem witness_CallOverflowFaults : ∃ s : State, s.fault = none ∧ s.run = .running ∧ s.pc.toNat ≤ 0xFFE ∧
    decode s.fetchWord = .instr (.call 0x300#12) ∧ s.sp.val = 16 :=
  ⟨atEnd 0x2300#16 (withDepth 16 State.reset), by decide⟩
theorem witness_CallOverflowFaults_only : ∃ (s t : State) (r : FaultRecord), s.fault = none ∧
    exec (.call 0x300#12) s = .next t ∧ t.fault = some r ∧ r.kind = .stackOverflow :=
  ⟨withDepth 16 State.reset, _, _, rfl, rfl, rfl, rfl⟩
theorem witness_RetUnderflowFaults : ∃ s : State, s.fault = none ∧ s.run = .running ∧ s.pc.toNat ≤ 0xFFE ∧
    decode s.fetchWord = .instr .ret ∧ s.sp.val = 0 := ⟨atEnd 0x00EE#16 State.reset, by decide⟩
theorem witness_RetUnderflowFaults_only : ∃ (s t : State) (r : FaultRecord), s.fault = none ∧
    exec .ret s = .next t ∧ t.fault = some r ∧ r.kind = .stackUnderflow := ⟨State.reset, _, _, rfl, rfl, rfl, rfl⟩
/-- B2. -/
theorem witness_ParkedIsAFixedPoint : (at200 0x1200#16 State.reset).parked :=
  ⟨rfl, rfl, by decide, 0x200#12, by decide, by decide⟩

/-- M14: I = 0xFFD is the last address the three digits fit at. -/
theorem witness_BcdStoresDigits : ∃ s : State, s.i.toNat + 2 ≤ 0xFFF := ⟨State.reset.setIndex 0x0FFD#16, by decide⟩
theorem witness_StoreRegsStoresRange_fits : ∃ (x : Nibble) (s : State), s.i.toNat + x.toNat ≤ 0xFFF :=
  ⟨0xF#4, State.reset.setIndex 0x0FF0#16, by decide⟩
theorem witness_StoreRegsStoresRange_faults : ∃ (x : Nibble) (s : State), 0xFFF < s.i.toNat + x.toNat :=
  ⟨0xF#4, State.reset.setIndex 0x0FF1#16, by decide⟩
theorem witness_LoadRegsLoadsRange_fits : ∃ (x : Nibble) (s : State), s.i.toNat + x.toNat ≤ 0xFFF :=
  ⟨0x0#4, State.reset.setIndex 0x0FFF#16, by decide⟩
theorem witness_LoadRegsLoadsRange_faults : ∃ (x : Nibble) (s : State), 0xFFF < s.i.toNat + x.toNat :=
  ⟨0x0#4, State.reset.setIndex 0x1000#16, by decide⟩
theorem witness_LoadUndoesStore : ∃ (x : Nibble) (s t u : State), s.i.toNat + x.toNat ≤ 0xFFF ∧
    exec (.storeRegs x) s = .next t ∧ (∀ a, u.byteAt a = t.byteAt a) ∧ u.i = s.i :=
  ⟨0x0#4, State.reset.setIndex 0x0FFF#16, _, State.setIndex _ 0x0FFF#16, by decide, rfl, fun _ => rfl, rfl⟩

/-- The hypotheses of DataAccessFaults for one instruction and one I. -/
def dataFaultReady (i : Instr) (len : Nat) (base : Word) : Prop :=
  ∃ s : State, s.fault = none ∧ s.run = .running ∧ s.pc.toNat ≤ 0xFFE ∧ decode s.fetchWord = .instr i ∧
    dataExtent i = some len ∧ 1 ≤ len ∧ s.i = base ∧ 0xFFF < s.i.toNat + len - 1

/-- DS9, M15, M18, M24. -/
theorem witness_DataAccessFaults_drw : dataFaultReady (.drw 0x0#4 0x1#4 0xF#4) 15 0x0FF2#16 :=
  ⟨at200 0xD01F#16 (State.reset.setIndex 0x0FF2#16), by decide⟩
theorem witness_DataAccessFaults_bcd : dataFaultReady (.storeBcd 0x0#4) 3 0x0FFE#16 :=
  ⟨at200 0xF033#16 (State.reset.setIndex 0x0FFE#16), by decide⟩
theorem witness_DataAccessFaults_store : dataFaultReady (.storeRegs 0x1#4) 2 0x0FFF#16 :=
  ⟨at200 0xF155#16 (State.reset.setIndex 0x0FFF#16), by decide⟩
theorem witness_DataAccessFaults_load : dataFaultReady (.loadRegs 0x0#4) 1 0x1000#16 :=
  ⟨at200 0xF065#16 (State.reset.setIndex 0x1000#16), by decide⟩

/-- DS8 and DS6: the last extent that fits, and n = 0 with any I. -/
theorem witness_DrwBlits : ∃ (n : Nibble) (s : State), n = 0xF#4 ∧ (1 ≤ n.toNat → s.i.toNat + n.toNat - 1 ≤ 0xFFF) :=
  ⟨0xF#4, State.reset.setIndex 0x0FF1#16, rfl, by decide⟩
theorem witness_DrwBlits_empty : ∃ (n : Nibble) (s : State), s.i = 0xFFFF#16 ∧
    (1 ≤ n.toNat → s.i.toNat + n.toNat - 1 ≤ 0xFFF) := ⟨0x0#4, State.reset.setIndex 0xFFFF#16, rfl, by decide⟩
theorem witness_DrawingTwiceRestores : ∃ (s t u : State),
    (1 ≤ (0x5#4).toNat → s.i.toNat + (0x5#4).toNat - 1 ≤ 0xFFF) ∧ exec (.drw 0x0#4 0x1#4 0x5#4) s = .next t ∧
    t.reg 0x0#4 = s.reg 0x0#4 ∧ t.reg 0x1#4 = s.reg 0x1#4 ∧ exec (.drw 0x0#4 0x1#4 0x5#4) t = .next u ∧
    ∀ cx cy, cx < 64 → cy < 32 → fbCell s.fb cx cy = false :=
  ⟨State.reset, _, _, by decide, rfl, by simp [regF], by simp [regF], rfl,
    by intro cx cy _ _; simp [State.reset, fbCell]⟩

theorem witness_KeySkips : ∃ (k : Nibble) (s : State), k.toNat = (s.reg 0x0#4).toNat % 16 :=
  ⟨0xA#4, v01 0x1A#8 0x00#8, by decide⟩
theorem witness_WaitEndsWithAPress : ∃ s : State, s.fault = none ∧ s.run = .running ∧ s.pc.toNat ≤ 0xFFE ∧
    decode s.fetchWord = .instr (.waitKey 0x3#4) ∧ s.key 0x7#4 = false :=
  ⟨at200 0xF30A#16 State.reset, by decide⟩

theorem witness_FaultedEngineIsFrozen : ∃ (c : Command) (s : State), s.fault ≠ none ∧ ∀ start, c ≠ .initializeAt start :=
  ⟨.tickTimers, State.reset.latch ⟨.stackUnderflow, some 0x00EE#16, 0x0300#16⟩, by decide, by intro _ h; cases h⟩
theorem witness_TickCountsDown : ∃ s : State, s.fault = none ∧ s.st = 0x01#8 ∧ s.dt = 0x00#8 :=
  ⟨State.reset.setST 0x01#8, rfl, rfl, rfl⟩
theorem witness_SetKey_edge : ∃ (s : State) (r : Nibble), s.fault = none ∧ s.run = .waitingForKey r ∧ s.key 0x7#4 = false :=
  ⟨State.reset.setRun (.waitingForKey 0xF#4), 0xF#4, rfl, rfl, by decide⟩
theorem witness_SetKey_noEdge : ∃ (s : State) (r : Nibble), s.fault = none ∧ s.run = .waitingForKey r ∧ s.key 0x7#4 = true :=
  ⟨(State.reset.setRun (.waitingForKey 0xF#4)).setKeyState 0x7#4 true, 0xF#4, rfl, rfl, by decide⟩
theorem witness_LoadProgramCopies_fits : (List.replicate 3584 0x00#8).length ≤ 3584 ∧ State.reset.fault = none :=
  ⟨by rw [List.length_replicate], rfl⟩
theorem witness_LoadProgramCopies_tooLarge : 3584 < (List.replicate 3585 0x00#8).length :=
  by rw [List.length_replicate]; decide
theorem witness_RedrawFlagIsSticky : ∃ s : State, s.fault = none ∧ s.redrawPending = true :=
  ⟨State.reset.setDisplay 0#2048, rfl, rfl⟩

end Sys2Proof.Tests
end

section
/-!
PROOFS. The family of 10_state.md: the canonical form of memory, the elements and registers an instruction writes, and the
reset values.
-/

namespace Sys2Proof.Machine

/-! ## What a result answers

`Answers r P` is the postcondition of a meaning. Below, one rule per way a meaning of the model is built: a next state, a range
check before it, a push and a pop. Each statement about every instruction is then one split over `Instr` with these rules. -/

/-- Every next state that `r` answers meets `P`. -/
def Answers (r : Result) (P : State → Prop) : Prop := ∀ t, r = .next t → P t

section
variable {P : State → Prop}

theorem answers_next_iff {t : State} : Answers (.next t) P ↔ P t :=
  ⟨fun h => h t rfl, by rintro h _ ⟨⟩; exact h⟩

theorem Answers.next {t : State} (h : P t) : Answers (.next t) P := answers_next_iff.2 h

/-- Raising a fault answers the state with the latch set, and nothing else (60 R216). -/
theorem Answers.raise {s : State} {k : FaultKind} {i : Instr} (h : ∀ r, P (s.latch r)) : Answers (s.raise k i) P :=
  .next (h _)

/-- A meaning behind a range check completes or faults (20 R54). -/
theorem Answers.checked {c : Bool} {s t : State} {k : FaultKind} {i : Instr} (done : c = true → P t)
    (faulted : ∀ r, P (s.latch r)) : Answers (if c then .next t else s.raise k i) P := by
  cases c with
  | true => exact .next (done rfl)
  | false => exact .raise faulted

/-- A call pushes and jumps, or faults (41 R121). -/
theorem Answers.call {s : State} {nnn : Addr} (done : ∀ t, s.push s.pc = some t → P (t.setPc (absAddr nnn)))
    (faulted : ∀ r, P (s.latch r)) : Answers (execCall nnn s) P := by
  unfold execCall
  split
  · next t pushed => exact .next (done t pushed)
  · exact .raise faulted

/-- A return pops, or faults (41 R122). -/
theorem Answers.ret {s : State} (done : ∀ t, s.popPc = some t → P t) (faulted : ∀ r, P (s.latch r)) :
    Answers (execRet s) P := by
  unfold execRet
  split
  · next t popped => exact .next (done t popped)
  · exact .raise faulted

end

/-! ## Frame rules: one per update of the state

Each rule asks that the elements the update touches are among `l`; where `l` is the list of an instruction, unfolding `writes`
shows it. -/

theorem Part.forall_iff {Q : Part → Prop} : (∀ p, Q p) ↔
    Q .mem ∧ Q .regs ∧ Q .index ∧ Q .pc ∧ Q .stack ∧ Q .sp ∧ Q .delay ∧ Q .sound ∧ Q .display ∧ Q .keys ∧ Q .run ∧
      Q .redraw ∧ Q .fault ∧ Q .draws :=
  ⟨fun h => by simp only [h, and_self], fun h p => by cases p <;> simp only [h]⟩

theorem SameBut.refl (l : List Part) (s : State) : SameBut l s s := fun p _ => by
  cases p with
  | mem | regs | stack | keys => exact fun _ => rfl
  | _ => rfl

theorem SameBut.trans {l : List Part} {s t u : State} (first : SameBut l s t) (second : SameBut l t u) :
    SameBut l s u := fun p hp => by
  have hst := first p hp
  have htu := second p hp
  cases p with
  | mem | regs | stack | keys => exact fun q => (htu q).trans (hst q)
  | _ => exact Eq.trans htu hst

section
variable {l : List Part} {s : State}

theorem SameBut.setReg {x : Nibble} {b : Byte} (h : .regs ∈ l := by simp [writes]) : SameBut l s (s.setReg x b) := by
  simp [SameBut, Part.forall_iff, Part.same, h]

theorem SameBut.setFlagged {x : Nibble} {flag : Bool} {b : Byte} (h : .regs ∈ l := by simp [writes]) :
    SameBut l s (s.setFlagged x flag b) :=
  (SameBut.setReg h).trans (SameBut.setReg h)

theorem SameBut.loadFirst (base count : Nat) (h : .regs ∈ l := by simp [writes]) :
    SameBut l s (s.loadFirst base count) := by
  induction count with
  | zero => exact .refl l s
  | succ k ih => exact ih.trans (.setReg h)

theorem SameBut.nextDraw (h : .draws ∈ l := by simp [writes]) : SameBut l s s.nextDraw := by
  simp [SameBut, Part.forall_iff, Part.same, h]

theorem SameBut.setIndex {a : Word} (h : .index ∈ l := by simp [writes]) : SameBut l s (s.setIndex a) := by
  simp [SameBut, Part.forall_iff, Part.same, h]

theorem SameBut.setPc {a : Word} (h : .pc ∈ l := by simp [writes]) : SameBut l s (s.setPc a) := by
  simp [SameBut, Part.forall_iff, Part.same, h]

theorem SameBut.skipIf {c : Bool} (h : .pc ∈ l := by simp [writes]) : SameBut l s (s.skipIf c) :=
  s.skipIf_eq c ▸ .setPc h

theorem SameBut.setMem {m : Memory} (h : .mem ∈ l := by simp [writes]) : SameBut l s (s.setMem m) := by
  simp [SameBut, Part.forall_iff, Part.same, h]

theorem SameBut.setDT {b : Byte} (h : .delay ∈ l := by simp [writes]) : SameBut l s (s.setDT b) := by
  simp [SameBut, Part.forall_iff, Part.same, h]

theorem SameBut.setST {b : Byte} (h : .sound ∈ l := by simp [writes]) : SameBut l s (s.setST b) := by
  simp [SameBut, Part.forall_iff, Part.same, h]

theorem SameBut.setDisplay {f : BitVec 2048} (h : .display ∈ l := by simp [writes])
    (h' : .redraw ∈ l := by simp [writes]) : SameBut l s (s.setDisplay f) := by
  simp [SameBut, Part.forall_iff, Part.same, h, h']

theorem SameBut.setRun {r : RunState} (h : .run ∈ l := by simp [writes]) : SameBut l s (s.setRun r) := by
  simp [SameBut, Part.forall_iff, Part.same, h]

theorem SameBut.latch (r : FaultRecord) (h : .fault ∈ l := by simp [writes]) : SameBut l s (s.latch r) := by
  simp [SameBut, Part.forall_iff, Part.same, h]

theorem SameBut.push {t : State} {a : Word} (pushed : s.push a = some t) (h : .stack ∈ l := by simp [writes])
    (h' : .sp ∈ l := by simp [writes]) : SameBut l s t := by
  obtain ⟨_, _, _, rfl, -⟩ := State.push_cases pushed
  simp [SameBut, Part.forall_iff, Part.same, State.byteAt, State.reg, State.key, h, h']

theorem SameBut.popPc {t : State} (popped : s.popPc = some t) (h : .pc ∈ l := by simp [writes])
    (h' : .sp ∈ l := by simp [writes]) : SameBut l s t := by
  obtain ⟨_, _, rfl, -⟩ := State.popPc_cases popped
  simp [SameBut, Part.forall_iff, Part.same, State.byteAt, State.reg, State.key, State.stackSlot, h, h']

end

/-! ## The elements an instruction writes (10 R38) -/

theorem exec_sameBut (i : Instr) (s : State) : Answers (exec i s) (SameBut (writes i) s) :=
  match i with
  | .cls => .next .setDisplay
  | .ret => .ret (fun _ popped => .popPc popped) .latch
  | .call _ => .call (fun _ pushed => .trans (.push pushed) .setPc) .latch
  | .jp _ | .jpV0 _ => .next .setPc
  | .seImm _ _ | .sneImm _ _ | .seReg _ _ | .sneReg _ _ | .skp _ | .sknp _ => .next .skipIf
  | .ldImm _ _ | .addImm _ _ | .ldReg _ _ | .orReg _ _ | .andReg _ _ | .xorReg _ _ | .readDelay _ => .next .setReg
  | .addReg _ _ | .subReg _ _ | .shr _ _ | .subnReg _ _ | .shl _ _ => .next .setFlagged
  | .rnd _ _ => .next (.trans .nextDraw .setReg)
  | .ldIndex _ | .addIndex _ | .ldFont _ => .next .setIndex
  | .drw _ _ _ => .checked (fun _ => .trans .setDisplay .setReg) .latch
  | .storeBcd _ => .checked (fun _ => .setMem) .latch
  | .storeRegs _ => .checked (fun _ => .trans .setMem .setIndex) .latch
  | .loadRegs _ => .checked (fun _ => .trans (.loadFirst _ _) .setIndex) .latch
  | .waitKey _ => .next .setRun
  | .setDelay _ => .next .setDT
  | .setSound _ => .next .setST

/-- Settles O18: each meaning is a composition of updates whose elements `writes` lists. -/
theorem instructionsWriteOnlyTheirElements : Obligations.InstructionsWriteOnlyTheirElements :=
  exec_sameBut

/-! ## The registers an instruction writes (10 R22) -/

theorem State.setReg_reg_of_beq_false {s : State} {x r : Nibble} {b : Byte} (h : (r == x) = false) :
    (s.setReg x b).reg r = s.reg r := by
  rw [State.setReg_reg, if_neg (beq_eq_false_iff_ne.1 h)]

theorem State.setFlagged_reg_of_beq_false {s : State} {x r : Nibble} {flag : Bool} {b : Byte}
    (h : (r == x || r == regF) = false) : (s.setFlagged x flag b).reg r = s.reg r := by
  obtain ⟨hx, hf⟩ := Bool.or_eq_false_iff.1 h
  exact (setReg_reg_of_beq_false hx).trans (setReg_reg_of_beq_false hf)

theorem State.loadFirst_reg_of_lt {s : State} {base : Nat} {x r : Nibble} (h : decide (r.toNat ≤ x.toNat) = false) :
    (s.loadFirst base (x.toNat + 1)).reg r = s.reg r := by
  have hr : ¬ r.toNat < x.toNat + 1 := by simpa [Nat.lt_succ_iff] using h
  rw [State.loadFirst_reg s base r (by have := x.isLt; omega), if_neg hr]

/-- The register writers one by one; for the others the registers are an element they do not write. -/
theorem exec_reg_of_not_writesReg (i : Instr) (s : State) (r : Nibble) :
    Answers (exec i s) fun t => writesReg r i = false → t.reg r = s.reg r := by
  cases i with
  | ldImm _ _ | addImm _ _ | rnd _ _ | ldReg _ _ | orReg _ _ | andReg _ _ | xorReg _ _ | readDelay _ =>
    exact .next State.setReg_reg_of_beq_false
  | addReg _ _ | subReg _ _ | shr _ _ | subnReg _ _ | shl _ _ => exact .next State.setFlagged_reg_of_beq_false
  | drw _ _ _ => exact .checked (fun _ => State.setReg_reg_of_beq_false) fun _ _ => rfl
  | loadRegs _ => exact .checked (fun _ => State.loadFirst_reg_of_lt) fun _ _ => rfl
  | _ => exact fun t h _ => exec_sameBut _ s t h .regs (by simp [writes]) r

/-- Settles O19. -/
theorem instructionsWriteOnlyTheirRegisters : Obligations.InstructionsWriteOnlyTheirRegisters :=
  fun i s t r h => exec_reg_of_not_writesReg i s r t h

/-! ## What an instruction does to memory -/

/-- `m'` is `m`, or `m` after a run of stores below 0x1000. -/
def Memory.StoredFrom (m m' : Memory) : Prop :=
  m' = m ∨ ∃ base ws, base + ws.length ≤ memSize ∧ m' = m.writeBytes base ws

theorem Memory.StoredFrom.wf {m m' : Memory} (h : m.StoredFrom m') (hm : m.wf = true) : m'.wf = true := by
  obtain rfl | ⟨base, ws, fits, rfl⟩ := h
  · exact hm
  · exact Memory.wf_writeBytes hm fits

/-- A store that passed the range check of its whole extent stays below 0x1000 (20 R54). -/
theorem Memory.StoredFrom.of_extentFits {m : Memory} {base : Word} {len : Nat} {ws : List Byte}
    (fits : extentFits base len = true) (hlen : ws.length = len) (pos : 1 ≤ len) :
    m.StoredFrom (m.writeBytes (effAddr base 0) ws) := by
  refine .inr ⟨_, ws, ?_, rfl⟩
  have := (extentFits_iff base len).1 fits pos
  simp only [effAddr, memSize]
  omega

theorem State.skipIf_mem (s : State) (c : Bool) : (s.skipIf c).mem = s.mem := by
  rw [State.skipIf_eq, State.setPc_mem]

theorem State.loadFirst_mem (s : State) (base count : Nat) : (s.loadFirst base count).mem = s.mem := by
  obtain ⟨regs, h⟩ := s.loadFirst_cases base count
  rw [h]

theorem State.push_mem {s t : State} {a : Word} (h : s.push a = some t) : t.mem = s.mem := by
  obtain ⟨_, _, _, rfl, -⟩ := State.push_cases h
  rfl

theorem State.popPc_mem {s t : State} (h : s.popPc = some t) : t.mem = s.mem := by
  obtain ⟨_, _, rfl, -⟩ := State.popPc_cases h
  rfl

/-- Only `Fx33` and `Fx55` store, and both check their extent first. -/
theorem exec_storedFrom (i : Instr) (s : State) : Answers (exec i s) fun t => s.mem.StoredFrom t.mem := by
  cases i with
  | storeBcd x => exact .checked (fun fits => .of_extentFits fits rfl (by decide)) fun _ => .inl rfl
  | storeRegs x =>
    have hlen : (s.firstRegs (x.toNat + 1)).length = x.toNat + 1 := s.firstRegs_length x.isLt
    exact .checked (fun fits => .of_extentFits fits hlen (Nat.le_add_left 1 _)) fun _ => .inl rfl
  | loadRegs _ => exact .checked (fun _ => .inl (s.loadFirst_mem _ _)) fun _ => .inl rfl
  | drw _ _ _ => exact .checked (fun _ => .inl rfl) fun _ => .inl rfl
  | call _ => exact .call (fun t pushed => .inl ((t.setPc_mem _).trans (State.push_mem pushed))) fun _ => .inl rfl
  | ret => exact .ret (fun _ popped => .inl (State.popPc_mem popped)) fun _ => .inl rfl
  | seImm _ _ | sneImm _ _ | seReg _ _ | sneReg _ _ | skp _ | sknp _ => exact .next (.inl (s.skipIf_mem _))
  | _ => exact .next (.inl rfl)

/-- A step stores what its instruction stores; an idle step and a step that faults at fetch or decode store nothing. -/
theorem step_storedFrom (s : State) : Answers (step s) fun t => s.mem.StoredFrom t.mem := by
  obtain ⟨-, h⟩ | ⟨-, -, h⟩ | ⟨-, -, w, -, h⟩ | ⟨-, -, i, -, h⟩ := step_cases s <;> rw [h]
  · exact .next (.inl rfl)
  · exact .next (.inl rfl)
  · exact .next (.inl rfl)
  · exact exec_storedFrom i s.advance

/-- Settles O14: memory changes only by stores that were range-checked, and these keep the canonical form. -/
theorem stepKeepsMemoryCanonical : Obligations.StepKeepsMemoryCanonical :=
  fun s t canonical h => (step_storedFrom s t h).wf canonical

/-! ## Canonical memories are determined by their reads -/

theorem Memory.read_of_wfFrom_of_lt {lo a : Nat} {m : Memory} (hm : Memory.wfFrom lo m = true) (ha : a < lo) :
    m.read a = resetByte a := by
  induction m generalizing lo with
  | nil => rfl
  | cons e m ih =>
    obtain ⟨b, w⟩ := e
    obtain ⟨hlo, -, -, tail⟩ := Memory.wfFrom_cons.1 hm
    rw [Memory.read, if_neg (by omega), ih tail (by omega)]

/-- A listed address reads as no unlisted one does, so a memory that reads alike cannot begin above it. -/
theorem Memory.le_of_read_eq {lo lo' a : Nat} {w : Byte} {m m' : Memory} (hm : Memory.wfFrom lo ((a, w) :: m) = true)
    (hm' : Memory.wfFrom lo' m' = true) (alike : ∀ c < memSize, Memory.read ((a, w) :: m) c = m'.read c) : lo' ≤ a := by
  obtain ⟨-, bound, listed, -⟩ := Memory.wfFrom_cons.1 hm
  by_contra above
  have : w = resetByte a := by
    simpa [Memory.read, Memory.read_of_wfFrom_of_lt hm' (Nat.lt_of_not_le above)] using alike a bound
  exact listed this

/-- Below a tail's first possible address both tails read as unlisted; above the common head they read as the lists. -/
theorem Memory.read_tail_eq {a : Nat} {w u : Byte} {m m' : Memory} (hm : Memory.wfFrom (a + 1) m = true)
    (hm' : Memory.wfFrom (a + 1) m' = true)
    (alike : ∀ c < memSize, Memory.read ((a, w) :: m) c = Memory.read ((a, u) :: m') c) (c : Nat) (hc : c < memSize) :
    m.read c = m'.read c := by
  by_cases h : c ≤ a
  · rw [read_of_wfFrom_of_lt hm (Nat.lt_succ_of_le h), read_of_wfFrom_of_lt hm' (Nat.lt_succ_of_le h)]
  · simpa [Memory.read, show a ≠ c by omega] using alike c hc

theorem Memory.eq_of_read_eq {lo : Nat} {m m' : Memory} (hm : Memory.wfFrom lo m = true)
    (hm' : Memory.wfFrom lo m' = true) (alike : ∀ c < memSize, m.read c = m'.read c) : m = m' := by
  induction m generalizing lo m' with
  | nil =>
    cases m' with
    | nil => rfl
    | cons e m' =>
      have : e.1 + 1 ≤ e.1 := Memory.le_of_read_eq hm' (m' := []) rfl fun c hc => (alike c hc).symm
      omega
  | cons e m ih =>
    obtain ⟨a, w⟩ := e
    cases m' with
    | nil =>
      have : a + 1 ≤ a := Memory.le_of_read_eq hm (m' := []) rfl alike
      omega
    | cons e' m' =>
      obtain ⟨b, u⟩ := e'
      obtain ⟨-, bound, ha, tail⟩ := Memory.wfFrom_cons.1 hm
      obtain ⟨-, bound', hb, tail'⟩ := Memory.wfFrom_cons.1 hm'
      have hba : b ≤ a := le_of_read_eq hm (wfFrom_cons.2 ⟨le_rfl, bound', hb, tail'⟩) alike
      have hab : a ≤ b := le_of_read_eq hm' (wfFrom_cons.2 ⟨le_rfl, bound, ha, tail⟩) fun c hc => (alike c hc).symm
      obtain rfl : a = b := le_antisymm hab hba
      obtain rfl : w = u := by simpa [Memory.read] using alike a bound
      rw [ih tail tail' (read_tail_eq tail tail' alike)]

/-- Settles O13, by induction on both lists: the first entries agree, and the tails read alike. -/
theorem canonicalMemoriesAreEqualData : Obligations.CanonicalMemoriesAreEqualData :=
  fun _ _ hm hm' alike => Memory.eq_of_read_eq hm hm' fun c hc => alike c (Nat.le_of_lt_succ hc)

/-! ## Reset -/

theorem State.reset_reg (r : Nibble) : State.reset.reg r = 0x00#8 := by simp [State.reg, State.reset]

theorem State.reset_stackSlot (k : Fin 16) : State.reset.stackSlot k = 0x0000#16 := by
  simp [State.stackSlot, State.reset]

theorem State.reset_key (k : Nibble) : State.reset.key k = false := by simp [State.key, State.reset]

theorem State.reset_fbCell (x y : Nat) : fbCell State.reset.fb x y = false := by simp [fbCell, State.reset]

/-- Settles O12: the font at its addresses and zeros above; every other element is that of `State.reset`. -/
theorem initializeGivesResetValues : Obligations.InitializeGivesResetValues := by
  intro font s start
  refine ⟨s.initialized font start, rfl, fun a h => ?_, fun a h => ?_, State.reset_reg, rfl, rfl,
    State.reset_stackSlot, rfl, rfl, rfl, State.reset_fbCell, State.reset_key, rfl, rfl, rfl⟩
  · rw [State.initialized_byteAt, Memory.read_loadFont, dif_pos h]
  · rw [State.initialized_byteAt, Memory.read_loadFont, dif_neg (Nat.not_lt.2 h)]

/-- Settles O16. -/
theorem resetMeetsInvariants : Obligations.ResetMeetsInvariants :=
  ⟨State.reset_mem_wf, fun _ latched => nomatch latched⟩

end Sys2Proof.Machine
end

section
/-!
PROOFS. The family of 20_memory.md: a word placed at pc reads back from its two bytes, so the next step decodes and runs it.
-/

namespace Sys2Proof.Machine

/-- A step that fetches and decodes an instruction runs it on the advanced state (45 R192). -/
theorem step_of_decode {s : State} {i : Instr} (ready : s.idle = false) (fetchable : s.fetchable = true)
    (decoded : decode s.fetchWord = .instr i) : step s = exec i s.advance := by
  simp [step, ready, fetchable, decoded]

@[simp] theorem tableWord_toNat (w : Word) : tableWord 16 w.toNat = w := by
  rw [tableWord, Nat.mod_eq_of_lt w.isLt, BitVec.ofNat_toNat, BitVec.setWidth_eq]

theorem decodeTableWord_eq_some_iff {w : Word} {i : Instr} :
    decodeTableWord 16 w.toNat = some i ↔ decode w = .instr i := by
  rw [decodeTableWord, tableWord_toNat, wordOfBytes_bytes]
  cases decode w <;> simp

@[simp] theorem State.placeWord_idle (s : State) (w : Word) : (s.placeWord w).idle = false :=
  (State.not_idle_iff _).2 ⟨rfl, rfl⟩

/-- The two bytes, high byte first, make the word again (20 R55, R56); the second store leaves the first byte alone. -/
@[simp] theorem State.placeWord_fetchWord (s : State) (w : Word) : (s.placeWord w).fetchWord = w := by
  have first : (s.placeWord w).byteAt s.pc.toNat = firstByte w := by
    simp [State.placeWord, State.byteAt, Memory.read_write]
  have second : (s.placeWord w).byteAt (s.pc.toNat + 1) = secondByte w := by
    simp [State.placeWord, State.byteAt, Memory.read_write]
  calc (s.placeWord w).fetchWord
      = wordOfBytes ((s.placeWord w).byteAt s.pc.toNat) ((s.placeWord w).byteAt (s.pc.toNat + 1)) := rfl
    _ = w := by rw [first, second, wordOfBytes_bytes]

/-- Settles O11: the state with the word placed is not idle, fetches that word, and the word decodes to the instruction. -/
theorem placedWordRuns : Obligations.PlacedWordRuns := by
  intro s w i inRange decoded
  rw [State.withFetchWord, tableWord_toNat]
  refine step_of_decode (s.placeWord_idle w) (decide_eq_true inRange) ?_
  rw [State.placeWord_fetchWord]
  exact decodeTableWord_eq_some_iff.1 decoded

end Sys2Proof.Machine
end

section
/-!
PROOFS. The family of 30_encoding.md. The decoder is walked once, group by group, for both of its answers
(`decode_accounts`): an instruction encodes to the word, and a refused word is on the list of R78. The statements on
decoding follow from that, the laws of encoded words (Laws/PerInstr.lean) and the disjointness of the rows of the map.
-/

namespace Sys2Proof

/-! ## From an instruction to its word and back -/

/-- Settles O1, by format and group: the fields of an encoded word are the operands, and the dispatch reads them. -/
theorem decodeOfEncode : Obligations.DecodeOfEncode := by
  intro i
  cases i with
  | cls | ret => decide
  | jp | call | ldIndex | jpV0 => simp [encode, decode, decodeFields]
  | seImm | sneImm | ldImm | addImm | rnd => simp [encode, decode, decodeFields]
  | seReg | sneReg | drw => simp [encode, decode, decodeFields]
  | ldReg | orReg | andReg | xorReg | addReg | subReg | shr | subnReg | shl =>
    simp [encode, decode, decodeFields, decodeGroup8]
  | skp | sknp => simp [encode, decode, decodeFields, decodeGroupE]
  | readDelay | waitKey | setDelay | setSound | addIndex | ldFont | storeBcd | storeRegs | loadRegs =>
    simp [encode, decode, decodeFields, decodeGroupF]

/-- Settles O5: the words of instructions are encodings, and the other two are illegal. -/
theorem specWordsDecode : Obligations.SpecWordsDecode :=
  ⟨decodeOfEncode (.ldImm 0x0#4 0x05#8), decodeOfEncode (.addImm 0x0#4 0x03#8), decodeOfEncode (.shr 0x0#4 0xA#4),
    decodeOfEncode (.call 0x300#12), decodeOfEncode .ret, decodeOfEncode (.storeBcd 0x3#4),
    decodeOfEncode (.loadRegs 0x2#4), decodeOfEncode (.drw 0x1#4 0x2#4 0x5#4), decodeOfEncode (.waitKey 0x3#4),
    decodeOfEncode (.skp 0x1#4), by decide, by decide⟩

/-! ## A word put together again from its fields, one rule per format (30 R71, R72) -/

section
variable {w : Word} {op : Nibble}

theorem append_fieldNNN (hop : fieldOp w = op) : op ++ fieldNNN w = w := by
  subst hop
  rw [fieldOp, fieldNNN, BitVec.extractLsb'_append_extractLsb'_eq_extractLsb' (rfl : 12 = 0 + 12)]
  exact BitVec.extractLsb'_eq_self

theorem append_fieldX_append {kk : Byte} (hop : fieldOp w = op) (hkk : fieldKK w = kk) : op ++ fieldX w ++ kk = w := by
  subst hop hkk
  rw [fieldOp, fieldX, fieldKK, BitVec.extractLsb'_append_extractLsb'_eq_extractLsb' (rfl : 12 = 8 + 4),
    BitVec.extractLsb'_append_extractLsb'_eq_extractLsb' (rfl : 8 = 0 + 8)]
  exact BitVec.extractLsb'_eq_self

theorem append_fieldX_fieldY_append {n : Nibble} (hop : fieldOp w = op) (hn : fieldN w = n) :
    op ++ fieldX w ++ fieldY w ++ n = w := by
  have low : fieldY w ++ n = fieldKK w := by
    subst hn
    exact BitVec.extractLsb'_append_extractLsb'_eq_extractLsb' rfl
  rw [BitVec.append_assoc, low]
  exact append_fieldX_append hop rfl

end

/-! ## What the decoder answers -/

/-- The decoder's answer accounts for `w`: the instruction encodes to `w`, or `w` itself is refused and on the list of
illegal words (30 R75, R78). -/
def Decoded.Accounts (w : Word) : Decoded → Prop
  | .instr i => encode i = w
  | .unknown u => u = w ∧ legalWord w = false

theorem Decoded.Accounts.ite {w : Word} {c : Prop} [Decidable c] {d e : Decoded} (yes : c → d.Accounts w)
    (no : ¬c → e.Accounts w) : (if c then d else e).Accounts w := by
  split
  · next h => exact yes h
  · next h => exact no h

/-- The low nibbles that group 8 gives no meaning are the seven that R78 lists. -/
theorem group8_nibbles : ∀ n : Nibble, n ∉ [0x0#4, 0x1#4, 0x2#4, 0x3#4, 0x4#4, 0x5#4, 0x6#4, 0x7#4, 0xE#4] →
    (!([0x8#4, 0x9#4, 0xA#4, 0xB#4, 0xC#4, 0xD#4, 0xF#4].contains n)) = false := by decide

/-- Group F is what the other fifteen high nibbles leave. -/
theorem groupF_nibble : ∀ op : Nibble, op ∉ [0x0#4, 0x1#4, 0x2#4, 0x3#4, 0x4#4, 0x5#4, 0x6#4, 0x7#4, 0x8#4, 0x9#4,
    0xA#4, 0xB#4, 0xC#4, 0xD#4, 0xE#4] → op = 0xF#4 := by decide

section
variable {w : Word}

theorem decodeGroup0_accounts (hop : fieldOp w = 0x0#4) : (decodeGroup0 w).Accounts w :=
  .ite Eq.symm fun hE0 => .ite Eq.symm fun hEE => ⟨rfl, by simp [legalWord_eq, hop, legalGroup0, hE0, hEE]⟩

/-- Groups 5 and 9: one instruction where the low nibble is 0, none elsewhere (30 R78). -/
theorem decodeGroup59_accounts {op : Nibble} {i : Instr} (group : op = 0x5#4 ∨ op = 0x9#4)
    (encoding : encode i = op ++ fieldX w ++ fieldY w ++ 0x0#4) (hop : fieldOp w = op) :
    Decoded.Accounts w (if fieldN w = 0x0#4 then .instr i else .unknown w) :=
  .ite (fun hn => encoding.trans (append_fieldX_fieldY_append hop hn)) fun hn =>
    ⟨rfl, by obtain rfl | rfl := group <;> simp [legalWord_eq, hop, hn]⟩

theorem decodeGroup8_accounts (hop : fieldOp w = 0x8#4) :
    (decodeGroup8 w (fieldX w) (fieldY w) (fieldN w)).Accounts w :=
  have xyn {n : Nibble} (hn : fieldN w = n) : 0x8#4 ++ fieldX w ++ fieldY w ++ n = w :=
    append_fieldX_fieldY_append hop hn
  .ite xyn fun h0 => .ite xyn fun h1 => .ite xyn fun h2 => .ite xyn fun h3 => .ite xyn fun h4 => .ite xyn fun h5 =>
    .ite xyn fun h6 => .ite xyn fun h7 => .ite xyn fun hE => ⟨rfl, by
      rw [legalWord_eq, hop]
      exact group8_nibbles _ (by simp [h0, h1, h2, h3, h4, h5, h6, h7, hE])⟩

theorem decodeGroupE_accounts (hop : fieldOp w = 0xE#4) : (decodeGroupE w (fieldX w) (fieldKK w)).Accounts w :=
  have xkk {kk : Byte} (hkk : fieldKK w = kk) : 0xE#4 ++ fieldX w ++ kk = w := append_fieldX_append hop hkk
  .ite xkk fun h9E => .ite xkk fun hA1 => ⟨rfl, by simp [legalWord_eq, hop, h9E, hA1]⟩

theorem decodeGroupF_accounts (hop : fieldOp w = 0xF#4) : (decodeGroupF w (fieldX w) (fieldKK w)).Accounts w :=
  have xkk {kk : Byte} (hkk : fieldKK w = kk) : 0xF#4 ++ fieldX w ++ kk = w := append_fieldX_append hop hkk
  .ite xkk fun h07 => .ite xkk fun h0A => .ite xkk fun h15 => .ite xkk fun h18 => .ite xkk fun h1E =>
    .ite xkk fun h29 => .ite xkk fun h33 => .ite xkk fun h55 => .ite xkk fun h65 => ⟨rfl, by
      simp [legalWord_eq, hop, h07, h0A, h15, h18, h1E, h29, h33, h55, h65]⟩

end

/-- The dispatch on the high nibble, in the decoder's order (30 R74). -/
theorem decode_accounts (w : Word) : (decode w).Accounts w := by
  have xkk {op : Nibble} (hop : fieldOp w = op) : op ++ fieldX w ++ fieldKK w = w := append_fieldX_append hop rfl
  have xyn {op : Nibble} (hop : fieldOp w = op) : op ++ fieldX w ++ fieldY w ++ fieldN w = w :=
    append_fieldX_fieldY_append hop rfl
  unfold decode decodeFields
  exact .ite decodeGroup0_accounts fun h0 => .ite append_fieldNNN fun h1 => .ite append_fieldNNN fun h2 =>
    .ite xkk fun h3 => .ite xkk fun h4 => .ite (decodeGroup59_accounts (.inl rfl) rfl) fun h5 =>
    .ite xkk fun h6 => .ite xkk fun h7 => .ite decodeGroup8_accounts fun h8 =>
    .ite (decodeGroup59_accounts (.inr rfl) rfl) fun h9 => .ite append_fieldNNN fun hA =>
    .ite append_fieldNNN fun hB => .ite xkk fun hC => .ite xyn fun hD => .ite decodeGroupE_accounts fun hE =>
    decodeGroupF_accounts (groupF_nibble _ (by simp [h0, h1, h2, h3, h4, h5, h6, h7, h8, h9, hA, hB, hC, hD, hE]))

theorem encode_of_decode {w : Word} {i : Instr} (decoded : decode w = .instr i) : encode i = w := by
  simpa [decoded, Decoded.Accounts] using decode_accounts w

theorem unknown_of_decode {w u : Word} (refused : decode w = .unknown u) : u = w ∧ legalWord w = false := by
  simpa [refused, Decoded.Accounts] using decode_accounts w

/-- Settles O2. -/
theorem encodeOfDecode : Obligations.EncodeOfDecode := fun _ _ => encode_of_decode

/-! ## Decoding and the list of illegal words (30 R78) -/

open Laws.Encoding in
/-- The word of every instruction is legal and matches its row (Laws/PerInstr.lean). -/
theorem encode_statement : ∀ i, Statement i
  | .cls => cls
  | .ret => ret
  | .jp _ => jp _
  | .call _ => call _
  | .seImm _ _ => seImm _ _
  | .sneImm _ _ => sneImm _ _
  | .seReg _ _ => seReg _ _
  | .ldImm _ _ => ldImm _ _
  | .addImm _ _ => addImm _ _
  | .ldReg _ _ => ldReg _ _
  | .orReg _ _ => orReg _ _
  | .andReg _ _ => andReg _ _
  | .xorReg _ _ => xorReg _ _
  | .addReg _ _ => addReg _ _
  | .subReg _ _ => subReg _ _
  | .shr _ _ => shr _ _
  | .subnReg _ _ => subnReg _ _
  | .shl _ _ => shl _ _
  | .sneReg _ _ => sneReg _ _
  | .ldIndex _ => ldIndex _
  | .jpV0 _ => jpV0 _
  | .rnd _ _ => rnd _ _
  | .drw _ _ _ => drw _ _ _
  | .skp _ => skp _
  | .sknp _ => sknp _
  | .readDelay _ => readDelay _
  | .waitKey _ => waitKey _
  | .setDelay _ => setDelay _
  | .setSound _ => setSound _
  | .addIndex _ => addIndex _
  | .ldFont _ => ldFont _
  | .storeBcd _ => storeBcd _
  | .storeRegs _ => storeRegs _
  | .loadRegs _ => loadRegs _

theorem legalWord_of_decode {w : Word} {i : Instr} (decoded : decode w = .instr i) : legalWord w = true :=
  encode_of_decode decoded ▸ (encode_statement i).1

theorem matchesWord_of_decode {w : Word} {i : Instr} (decoded : decode w = .instr i) :
    (rowOf i).matchesWord w = true := by
  have matching := (encode_statement i).2
  rwa [encode_of_decode decoded] at matching

theorem decode_unknown_iff {w : Word} : decode w = .unknown w ↔ legalWord w = false := by
  refine ⟨fun refused => (unknown_of_decode refused).2, fun illegal => ?_⟩
  cases answer : decode w with
  | instr i => simp [legalWord_of_decode answer] at illegal
  | unknown u => rw [(unknown_of_decode answer).1]

/-- Settles O4. -/
theorem illegalWordsAreTheListedOnes : Obligations.IllegalWordsAreTheListedOnes := fun _ => decode_unknown_iff

/-! ## Decoding and the opcode map (30 R75, R76) -/

theorem rowOf_mem_opcodeTable (i : Instr) : rowOf i ∈ opcodeTable := by
  cases i <;> simp [rowOf, opcodeTable]

/-- Any two rows disagree on some bit that both masks keep: "the 34 patterns of rule R76 are pairwise disjoint". -/
theorem opcodeTable_pairwise : opcodeTable.Pairwise fun r r' => r.bits &&& r'.mask ≠ r'.bits &&& r.mask := by decide

theorem OpRow.bits_and_mask_comm {r r' : OpRow} {w : Word} (h : r.matchesWord w = true) (h' : r'.matchesWord w = true) :
    r.bits &&& r'.mask = r'.bits &&& r.mask := by
  rw [← eq_of_beq h, ← eq_of_beq h', BitVec.and_assoc, BitVec.and_assoc, BitVec.and_comm r.mask]

theorem row_unique {r r' : OpRow} {w : Word} (hr : r ∈ opcodeTable) (hr' : r' ∈ opcodeTable)
    (h : r.matchesWord w = true) (h' : r'.matchesWord w = true) : r = r' := by
  have : Std.Symm fun r r' : OpRow => r.bits &&& r'.mask ≠ r'.bits &&& r.mask := ⟨fun _ _ => Ne.symm⟩
  by_contra distinct
  exact opcodeTable_pairwise.forall hr hr' distinct (OpRow.bits_and_mask_comm h h')

/-- Every mask keeps the fields that the list of R78 reads in the row's group: all of them in group 0, the low nibble in
groups 5, 9 and 8, the low byte in groups E and F. -/
theorem opcodeTable_masks : ∀ r ∈ opcodeTable, fieldOp r.mask = BitVec.allOnes 4 ∧
    (fieldOp r.bits = 0x0#4 → r.mask = BitVec.allOnes 16) ∧
    ((fieldOp r.bits = 0x5#4 ∨ fieldOp r.bits = 0x9#4) ∨ fieldOp r.bits = 0x8#4 → fieldN r.mask = BitVec.allOnes 4) ∧
    (fieldOp r.bits = 0xE#4 ∨ fieldOp r.bits = 0xF#4 → fieldKK r.mask = BitVec.allOnes 8) := by decide

theorem opcodeTable_legalWord_bits : ∀ r ∈ opcodeTable, legalWord r.bits = true := by decide

/-- A field that the mask keeps whole is the row's own in every word of the row. -/
theorem OpRow.extractLsb'_of_matchesWord {r : OpRow} {w : Word} {start len : Nat} (matching : r.matchesWord w = true)
    (kept : r.mask.extractLsb' start len = BitVec.allOnes len) :
    w.extractLsb' start len = r.bits.extractLsb' start len := by
  rw [← eq_of_beq matching, BitVec.extractLsb'_and, kept, BitVec.and_allOnes]

/-- A word of a row has the fields by which R78 judges the row's own bits, so it is judged alike. -/
theorem legalWord_of_matchesWord {r : OpRow} {w : Word} (mem : r ∈ opcodeTable) (matching : r.matchesWord w = true) :
    legalWord w = true := by
  obtain ⟨keepsOp, keepsWord, keepsN, keepsKK⟩ := opcodeTable_masks r mem
  have sameOp : fieldOp w = fieldOp r.bits := OpRow.extractLsb'_of_matchesWord matching keepsOp
  have sameN group : fieldN w = fieldN r.bits := OpRow.extractLsb'_of_matchesWord matching (keepsN group)
  have sameKK group : fieldKK w = fieldKK r.bits := OpRow.extractLsb'_of_matchesWord matching (keepsKK group)
  rw [← opcodeTable_legalWord_bits r mem, legalWord_eq, legalWord_eq, sameOp]
  split_ifs with h0 h59 h8 hE hF
  · rw [← eq_of_beq matching, keepsWord h0, BitVec.and_allOnes]
  · rw [sameN (.inl h59)]
  · rw [sameN (.inr h8)]
  · rw [sameKK (.inl hE)]
  · rw [sameKK (.inr hF)]
  · rfl

theorem decode_unknown_iff_no_row {w : Word} :
    decode w = .unknown w ↔ ∀ r ∈ opcodeTable, r.matchesWord w = false := by
  constructor
  · intro refused r mem
    have illegal := decode_unknown_iff.1 refused
    exact Bool.eq_false_iff.2 fun matching => by simp [legalWord_of_matchesWord mem matching] at illegal
  · intro noRow
    cases answer : decode w with
    | instr i => simpa [matchesWord_of_decode answer] using noRow _ (rowOf_mem_opcodeTable i)
    | unknown u => rw [(unknown_of_decode answer).1]

/-- Settles O3: the row of the decoded instruction is in the map, matches, and is the only one, by disjointness; a refused
word is illegal, and every word of a row is legal. -/
theorem decodeAgreesWithMap : Obligations.DecodeAgreesWithMap := fun _ =>
  ⟨fun i decoded =>
    have mem := rowOf_mem_opcodeTable i
    have matching := matchesWord_of_decode decoded
    ⟨mem, matching, fun _ hr h => row_unique hr mem h matching⟩,
  decode_unknown_iff_no_row, fun _ refused => (unknown_of_decode refused).1⟩

end Sys2Proof
end

section
/-!
PROOFS. The family of 40_alu.md. Every meaning there ends in one register write, or in the flag write and the result write of
40 R113; `exec_setReg` and `exec_setFlagged` say once what such an instruction leaves. What is particular to each instruction
is the byte it computes, and its flag.
-/

namespace Sys2Proof.Machine

/-! ## The two ways an ALU instruction ends -/

theorem RegsSameBut.setReg {s : State} {x : Nibble} {b : Byte} : RegsSameBut x s (s.setReg x b) := fun r hr => by
  rw [State.setReg_reg, if_neg hr]

theorem State.setReg_reg_self (s : State) (x : Nibble) (b : Byte) : (s.setReg x b).reg x = b := by
  rw [State.setReg_reg, if_pos rfl]

/-- An instruction that means one register write: the value, and the frame. -/
theorem exec_setReg {i : Instr} {s : State} {x : Nibble} {b : Byte} (meaning : exec i s = .next (s.setReg x b)) :
    ∃ t, exec i s = .next t ∧ t.reg x = b ∧ RegsSameBut x s t ∧ SameBut [.regs] s t :=
  ⟨_, meaning, s.setReg_reg_self x b, .setReg, .setReg⟩

/-- An instruction that means a flag write and then a result write: the result whatever `x` is (92 D4), the flag unless the
result overwrote it, and the frame. -/
theorem exec_setFlagged {i : Instr} {s : State} {x : Nibble} {flag : Bool} {result : Byte}
    (meaning : exec i s = .next (s.setFlagged x flag result)) :
    ∃ t, exec i s = .next t ∧ t.reg x = result ∧ (x ≠ 0xF#4 → t.reg 0xF#4 = flagByte flag) ∧
      (∀ r, r ≠ x → r ≠ 0xF#4 → t.reg r = s.reg r) ∧ SameBut [.regs] s t := by
  refine ⟨_, meaning, ?_, fun hx => ?_, fun r hx hF => ?_, .setFlagged⟩
  · exact (State.setFlagged_reg ..).trans (if_pos rfl)
  · exact (State.setFlagged_reg ..).trans ((if_neg hx.symm).trans (if_pos rfl))
  · exact (State.setFlagged_reg ..).trans ((if_neg hx).trans (if_neg hF))

/-! ## The flags as numbers (40 R111) -/

theorem flagByte_decide (p : Prop) [Decidable p] : flagByte (decide p) = if p then 0x01#8 else 0x00#8 := by
  simp [flagByte]

theorem flagByte_toNat (c : Bool) : (flagByte c).toNat = c.toNat := by cases c <;> rfl

theorem shrOut_toNat (a : Byte) : (shrOut a).toNat = a.toNat % 2 :=
  calc (shrOut a).toNat = a.toNat / 2 ^ 0 % 2 := Nat.toNat_testBit a.toNat 0
    _ = a.toNat % 2 := by rw [Nat.pow_zero, Nat.div_one]

/-- A byte has no bit above bit 7. -/
theorem shlOut_toNat (a : Byte) : (shlOut a).toNat = a.toNat / 128 := by
  have top : a.toNat / 128 < 2 := Nat.div_lt_of_lt_mul a.isLt
  calc (shlOut a).toNat = a.toNat / 2 ^ 7 % 2 := Nat.toNat_testBit a.toNat 7
    _ = a.toNat / 128 := Nat.mod_eq_of_lt top

/-! ## The results as numbers -/

theorem Byte.toNat_sub (a b : Byte) : (a - b).toNat = (a.toNat + 256 - b.toNat) % 256 := by
  have := b.isLt
  rw [BitVec.toNat_sub]
  congr 1
  omega

theorem Byte.toNat_ushiftRight_one (a : Byte) : (a >>> 1).toNat = a.toNat / 2 := by
  rw [BitVec.toNat_ushiftRight, Nat.shiftRight_one]

theorem Byte.toNat_shiftLeft_one (a : Byte) : (a <<< 1).toNat = 2 * a.toNat % 256 := by
  rw [BitVec.toNat_shiftLeft, Nat.shiftLeft_eq, Nat.pow_one, Nat.mul_comm]

/-! ## Loads, `7xkk` and the bitwise operations: one register, no flag -/

/-- Settles O21. -/
theorem ldImmLoads : Obligations.LdImmLoads := fun x kk _ => ⟨decodeOfEncode (.ldImm x kk), exec_setReg rfl⟩

/-- Settles O22: the addition of bytes is modulo 256, and 92 D7 gives it no flag. -/
theorem addImmWraps : Obligations.AddImmWraps := by
  intro x kk s
  obtain ⟨t, runs, value, frame⟩ := exec_setReg (i := .addImm x kk) (s := s) rfl
  exact ⟨t, runs, value ▸ BitVec.toNat_add _ _, frame⟩

/-- Settles O23. -/
theorem ldRegCopies : Obligations.LdRegCopies := fun x y _ => ⟨decodeOfEncode (.ldReg x y), exec_setReg rfl⟩

/-- Settles O24: the three operations on bytes act bit by bit. -/
theorem bitwiseOperations : Obligations.BitwiseOperations := by
  intro x y s
  obtain ⟨tOr, runsOr, valueOr, frameOr⟩ := exec_setReg (i := .orReg x y) (s := s) rfl
  obtain ⟨tAnd, runsAnd, valueAnd, frameAnd⟩ := exec_setReg (i := .andReg x y) (s := s) rfl
  obtain ⟨tXor, runsXor, valueXor, frameXor⟩ := exec_setReg (i := .xorReg x y) (s := s) rfl
  exact ⟨⟨tOr, runsOr, fun _ => valueOr ▸ BitVec.getLsbD_or, frameOr⟩,
    ⟨tAnd, runsAnd, fun _ => valueAnd ▸ BitVec.getLsbD_and, frameAnd⟩,
    ⟨tXor, runsXor, fun _ => valueXor ▸ BitVec.getLsbD_xor, frameXor⟩⟩

/-! ## The flag writers -/

/-- Settles O25. -/
theorem addRegSetsCarry : Obligations.AddRegSetsCarry := by
  intro x y s
  obtain ⟨t, runs, value, flag, frame⟩ := exec_setFlagged (i := .addReg x y) (s := s) rfl
  exact ⟨decodeOfEncode (.addReg x y), t, runs, value ▸ BitVec.toNat_add _ _,
    fun hx => (flag hx).trans (flagByte_decide _), frame⟩

/-- Settles O26. -/
theorem subRegSetsNotBorrow : Obligations.SubRegSetsNotBorrow := by
  intro x y s
  obtain ⟨t, runs, value, flag, frame⟩ := exec_setFlagged (i := .subReg x y) (s := s) rfl
  exact ⟨t, runs, value ▸ Byte.toNat_sub _ _, fun hx => (flag hx).trans (flagByte_decide _), frame⟩

/-- Settles O27. -/
theorem subnRegSetsNotBorrow : Obligations.SubnRegSetsNotBorrow := by
  intro x y s
  obtain ⟨t, runs, value, flag, frame⟩ := exec_setFlagged (i := .subnReg x y) (s := s) rfl
  exact ⟨decodeOfEncode (.subnReg x y), t, runs, value ▸ Byte.toNat_sub _ _,
    fun hx => (flag hx).trans (flagByte_decide _), frame⟩

/-- Settles O28: the bit shifted out is the remainder of the halving, or the carry of the doubling. -/
theorem shiftsMoveOneBit : Obligations.ShiftsMoveOneBit := by
  intro x y s
  obtain ⟨tR, runsR, valueR, flagR, frameR⟩ := exec_setFlagged (i := .shr x y) (s := s) rfl
  obtain ⟨tL, runsL, valueL, flagL, frameL⟩ := exec_setFlagged (i := .shl x y) (s := s) rfl
  refine ⟨⟨tR, runsR, valueR ▸ Byte.toNat_ushiftRight_one _, fun hx => ?_, frameR⟩,
    ⟨tL, runsL, valueL ▸ Byte.toNat_shiftLeft_one _, fun hx => ?_, frameL⟩⟩
  · rw [flagR hx, flagByte_toNat, shrOut_toNat]
  · rw [flagL hx, flagByte_toNat, shlOut_toNat]

/-! ## The random byte (40 R112) -/

/-- Settles O29: only the count moves before the register write; a byte masked with kk has no bit of the complement. -/
theorem rndMasksTheDraw : Obligations.RndMasksTheDraw := by
  intro x kk s
  have value : (s.nextDraw.setReg x (Config.rand s.draws &&& kk)).reg x = Config.rand s.draws &&& kk :=
    State.setReg_reg_self _ _ _
  refine ⟨_, _, rfl, rfl, value, ?_, rfl, .setReg (s := s.nextDraw), .trans .nextDraw .setReg⟩
  rw [value, BitVec.and_assoc, BitVec.and_not_self]
  exact BitVec.and_zero

end Sys2Proof.Machine
end

section
/-!
PROOFS. The family of 41_control_flow.md. A jump and a skip move pc alone (`exec_setPc`, `exec_skipIf`); a call with a free
slot and a return with a live entry complete (`exec_call_of_lt`, `exec_ret_of_live`), and RET undoes CALL because the one reads
the slot the other wrote.
-/

namespace Sys2Proof.Machine

/-! ## Absolute targets (30 R73) -/

theorem absAddr_toNat (nnn : Addr) : (absAddr nnn).toNat = nnn.toNat :=
  BitVec.toNat_setWidth_of_le (by decide)

/-- The largest target of `Bnnn` is 0xFFF + 0xFF, so its 16-bit sum does not wrap (92 D32). -/
theorem absAddr_add_zext16_toNat (nnn : Addr) (b : Byte) : (absAddr nnn + zext16 b).toNat = nnn.toNat + b.toNat := by
  have hb : (zext16 b).toNat = b.toNat := BitVec.toNat_setWidth_of_le (by decide)
  have fits : nnn.toNat + b.toNat < 2 ^ 16 := by have := nnn.isLt; have := b.isLt; omega
  rw [BitVec.toNat_add, absAddr_toNat, hb, Nat.mod_eq_of_lt fits]

/-! ## Instructions that write pc alone -/

section
variable {i : Instr} {s : State}

theorem exec_setPc {a : Word} (meaning : exec i s = .next (s.setPc a)) :
    ∃ t, exec i s = .next t ∧ t.pc = a ∧ SameBut [.pc] s t :=
  ⟨_, meaning, rfl, .setPc⟩

theorem exec_skipIf {c : Bool} (meaning : exec i s = .next (s.skipIf c)) :
    ∃ t, exec i s = .next t ∧ t.pc = (if c then s.pc + 2#16 else s.pc) ∧ SameBut [.pc] s t :=
  exec_setPc (meaning.trans (congrArg _ (s.skipIf_eq c)))

/-- A skip on equality (SE, 41 R124 and R126). -/
theorem exec_skipIf_beq {a b : Byte} (meaning : exec i s = .next (s.skipIf (a == b))) :
    ∃ t, exec i s = .next t ∧ t.pc = (if a = b then s.pc + 2#16 else s.pc) ∧ SameBut [.pc] s t := by
  obtain ⟨t, runs, pc, frame⟩ := exec_skipIf meaning
  exact ⟨t, runs, by simpa only [beq_iff_eq] using pc, frame⟩

/-- A skip on inequality (SNE, 41 R125 and R127). -/
theorem exec_skipIf_bne {a b : Byte} (meaning : exec i s = .next (s.skipIf (a != b))) :
    ∃ t, exec i s = .next t ∧ t.pc = (if a = b then s.pc else s.pc + 2#16) ∧ SameBut [.pc] s t := by
  obtain ⟨t, runs, pc, frame⟩ := exec_skipIf meaning
  exact ⟨t, runs, by simpa only [bne_iff_ne, ite_not] using pc, frame⟩

end

/-! ## Jumps -/

/-- A running engine whose pc is above 0xFFE latches PcOutOfRange (60 R214). -/
theorem step_of_not_fetchable {s : State} (ready : s.idle = false) (outside : s.fetchable = false) :
    step s = .next s.pcFault := by
  simp [step, ready, outside]

/-- Settles O30: the target is nnn as a number; at 0xFFF the state after the jump is running and cannot fetch. -/
theorem jpJumps : Obligations.JpJumps := by
  intro nnn s
  have target : (s.setPc (absAddr nnn)).pc.toNat = nnn.toNat := absAddr_toNat nnn
  refine ⟨decodeOfEncode (.jp nnn), _, rfl, target, .setPc, ?_, fun self => BitVec.eq_of_toNat_eq (target.trans self)⟩
  rintro rfl noFault running
  exact ⟨_, step_of_not_fetchable ((State.not_idle_iff _).2 ⟨noFault, running⟩) rfl, rfl⟩

/-- Settles O31. -/
theorem jpV0AddsV0 : Obligations.JpV0AddsV0 := by
  intro nnn s
  obtain ⟨t, runs, pc, frame⟩ := exec_setPc (i := .jpV0 nnn) (s := s) rfl
  exact ⟨t, runs, pc ▸ absAddr_add_zext16_toNat nnn _, frame⟩

theorem State.advance_setPc_pc (s : State) : s.advance.setPc s.pc = s := rfl

/-- Settles O39: the jump sends pc, which fetch had advanced, back to where it was. -/
theorem parkedIsAFixedPoint : Obligations.ParkedIsAFixedPoint := by
  rintro s ⟨noFault, running, fetchable, nnn, decoded, self⟩
  calc step s = exec (.jp nnn) s.advance := step_of_decode (s.not_idle_iff.2 ⟨noFault, running⟩) fetchable decoded
    _ = .next (s.advance.setPc (absAddr nnn)) := rfl
    _ = .next s := by rw [self, State.advance_setPc_pc]

/-! ## Call and return -/

theorem exec_call_of_lt (nnn : Addr) {s : State} (free : s.sp.val < 16) :
    ∃ t, s.push s.pc = some t ∧ exec (.call nnn) s = .next (t.setPc (absAddr nnn)) := by
  have pushed := s.push_of_lt s.pc free
  exact ⟨_, pushed, by simp only [exec, execCall, pushed]⟩

theorem exec_ret_of_live {s : State} (live : s.sp.val ≠ 0) : ∃ t, s.popPc = some t ∧ exec .ret s = .next t := by
  obtain ⟨t, popped⟩ := Option.ne_none_iff_exists'.1 (mt s.popPc_eq_none_iff.1 live)
  exact ⟨t, popped, by simp only [exec, execRet, popped]⟩

/-- Settles O32: the push writes the slot and the depth, the jump writes pc. -/
theorem callPushesAndJumps : Obligations.CallPushesAndJumps := by
  intro nnn s free
  obtain ⟨p, pushed, runs⟩ := exec_call_of_lt nnn free
  have frame : SameBut [.stack, .sp, .pc] s (p.setPc (absAddr nnn)) := .trans (.push pushed) .setPc
  obtain ⟨_, slots, d, rfl, depth, slot, others⟩ := State.push_cases pushed
  exact ⟨_, runs, slot, others, depth, absAddr_toNat nnn, frame⟩

/-- Settles O33: the entry popped is the one whose number is the depth less one. -/
theorem retPops : Obligations.RetPops := by
  intro s k top
  obtain ⟨t, popped, runs⟩ := exec_ret_of_live (s := s) (by omega)
  have frame : SameBut [.sp, .pc] s t := .popPc popped
  obtain ⟨j, d, rfl, depth, hd⟩ := State.popPc_cases popped
  obtain rfl : j = k := Fin.ext (by omega)
  exact ⟨_, runs, rfl, hd, frame⟩

/-- Settles O34: the call left the post-fetch pc in the slot that is on top when the return executes. -/
theorem retUndoesCall : Obligations.RetUndoesCall := by
  intro nnn s t u free called sameDepth sameStack
  obtain ⟨t', runs, slot, -, depth, -⟩ := callPushesAndJumps nnn s free
  obtain rfl : t' = t := Host.Outcome.next.inj (runs.symm.trans called)
  obtain ⟨v, returns, pc, sp, -⟩ := retPops u ⟨s.sp.val, free⟩ (sameDepth ▸ depth)
  refine ⟨v, returns, ?_, Fin.ext sp⟩
  calc v.pc = u.stackSlot ⟨s.sp.val, free⟩ := pc
    _ = t'.stackSlot ⟨s.sp.val, free⟩ := by rw [State.stackSlot, sameStack, State.stackSlot]
    _ = s.pc := slot

/-! ## Skips -/

/-- Settles O37. -/
theorem skipOnImmediate : Obligations.SkipOnImmediate := fun x kk _ =>
  ⟨⟨decodeOfEncode (.seImm x kk), exec_skipIf_beq rfl⟩, ⟨decodeOfEncode (.sneImm x kk), exec_skipIf_bne rfl⟩⟩

/-- Settles O38. -/
theorem skipOnRegister : Obligations.SkipOnRegister := fun x y _ =>
  ⟨⟨decodeOfEncode (.seReg x y), exec_skipIf_beq rfl⟩, ⟨decodeOfEncode (.sneReg x y), exec_skipIf_bne rfl⟩⟩

end Sys2Proof.Machine
end

section
/-!
PROOFS. The family of 42_index_memory.md. Three instructions move I alone (`exec_setIndex`). The stores and the range load check
their extent first: a store that passes leaves the bytes of its list at I and on (`Memory.read_writeBytes_at`) and every other
byte as it was (`Memory.read_writeBytes_of_outside`); an access that fails the check only latches (`exec_raise`).
-/

namespace Sys2Proof.Machine

/-! ## Instructions that write I alone -/

theorem exec_setIndex {i : Instr} {s : State} {a : Word} (meaning : exec i s = .next (s.setIndex a)) :
    ∃ t, exec i s = .next t ∧ t.i = a ∧ SameBut [.index] s t :=
  ⟨_, meaning, rfl, .setIndex⟩

theorem zext16_toNat (b : Byte) : (zext16 b).toNat = b.toNat := BitVec.toNat_setWidth_of_le (by decide)

theorem lowNibble_toNat (b : Byte) : (lowNibble b).toNat = b.toNat % 16 := BitVec.extractLsb'_toNat 0 4 b

/-- The last glyph starts at 75, so the 16-bit address does not wrap. -/
theorem glyphAddr_toNat (d : Nibble) : (glyphAddr d).toNat = 5 * d.toNat :=
  (BitVec.toNat_ofNat _ _).trans (Nat.mod_eq_of_lt (by have := d.isLt; omega))

/-- Settles O40. -/
theorem ldIndexSetsI : Obligations.LdIndexSetsI := by
  intro nnn s
  obtain ⟨t, runs, index, frame⟩ := exec_setIndex (i := .ldIndex nnn) (s := s) rfl
  exact ⟨decodeOfEncode (.ldIndex nnn), t, runs, index ▸ absAddr_toNat nnn, frame⟩

/-- Settles O41: the 16-bit sum is modulo 65536; the glyph's address is five times the low nibble. -/
theorem indexArithmetic : Obligations.IndexArithmetic := by
  intro x s
  obtain ⟨tAdd, runsAdd, indexAdd, frameAdd⟩ := exec_setIndex (i := .addIndex x) (s := s) rfl
  obtain ⟨tFont, runsFont, indexFont, frameFont⟩ := exec_setIndex (i := .ldFont x) (s := s) rfl
  refine ⟨⟨tAdd, runsAdd, ?_, frameAdd⟩, ⟨tFont, runsFont, ?_, frameFont⟩⟩
  · rw [indexAdd, BitVec.toNat_add, zext16_toNat]
  · rw [indexFont, glyphAddr_toNat, lowNibble_toNat]

/-! ## Reads after a run of stores (20 R53) -/

theorem Memory.read_writeBytes_at (m : Memory) (b : Nat) {k : Nat} {ws : List Byte} (inside : k < ws.length) :
    (m.writeBytes b ws).read (b + k) = ws.getD k 0x00#8 := by
  rw [Memory.read_writeBytes, if_pos ⟨Nat.le_add_right b k, Nat.add_lt_add_left inside b⟩, Nat.add_sub_cancel_left]

theorem Memory.read_writeBytes_of_outside (m : Memory) {b c : Nat} {ws : List Byte} (outside : c < b ∨ b + ws.length ≤ c) :
    (m.writeBytes b ws).read c = m.read c := by
  rw [Memory.read_writeBytes, if_neg (by omega)]

/-! ## Decimal digits -/

theorem exec_storeBcd_of_fits (x : Nibble) {s : State} (fits : s.i.toNat + 2 ≤ 0xFFF) :
    exec (.storeBcd x) s = .next (s.setMem (s.mem.writeBytes s.i.toNat (bcdDigits (s.reg x)))) :=
  if_pos ((extentFits_iff s.i 3).2 fun _ => fits)

/-- Settles O42: the three bytes stored are the digits, each below 256 as it stands. -/
theorem bcdStoresDigits : Obligations.BcdStoresDigits := by
  intro x s fits
  have small : (s.reg x).toNat < 256 := (s.reg x).isLt
  have digitAt {k d : Nat} (inside : k < 3) (hd : d < 256)
      (digit : (bcdDigits (s.reg x)).getD k 0x00#8 = BitVec.ofNat 8 d) :
      ((s.mem.writeBytes s.i.toNat (bcdDigits (s.reg x))).read (s.i.toNat + k)).toNat = d := by
    rw [Memory.read_writeBytes_at _ _ inside, digit, BitVec.toNat_ofNat, Nat.mod_eq_of_lt hd]
  refine ⟨_, exec_storeBcd_of_fits x fits, digitAt (k := 0) (by decide) (by omega) rfl,
    digitAt (by decide) (by omega) rfl, digitAt (by decide) (by omega) rfl, fun a outside => ?_, .setMem⟩
  exact Memory.read_writeBytes_of_outside _ outside

/-! ## The range transfers: their extent, their end and their fault -/

theorem extentFits_range_iff {base : Word} {x : Nibble} :
    extentFits base (x.toNat + 1) = true ↔ base.toNat + x.toNat ≤ 0xFFF := by
  rw [extentFits_iff]
  omega

/-- A range that ends at or below 0xFFF leaves I at or below 0x1000: the 16-bit sum does not wrap (92 D13). -/
theorem advancedIndex_toNat {base : Word} {x : Nibble} (fits : base.toNat + x.toNat ≤ 0xFFF) :
    (base + BitVec.ofNat 16 (x.toNat + 1)).toNat = base.toNat + x.toNat + 1 := by
  rw [BitVec.toNat_add, BitVec.toNat_ofNat]
  omega

/-- An instruction that raises latches its own word and the pc of its fetch, and writes nothing else (60 R216). -/
theorem exec_raise {i : Instr} {s : State} {kind : FaultKind} (meaning : exec i s = s.raise kind i) :
    ∃ t, exec i s = .next t ∧ t.fault = some { kind := kind, opcode := some (encode i), address := s.pc - 2#16 } ∧
      SameBut [.fault] s t :=
  ⟨_, meaning, rfl, .latch _⟩

section
variable (x : Nibble) {s : State}

theorem exec_storeRegs_of_fits (fits : s.i.toNat + x.toNat ≤ 0xFFF) :
    exec (.storeRegs x) s = .next ((s.setMem (s.mem.writeBytes s.i.toNat (s.firstRegs (x.toNat + 1)))).setIndex
      (s.i + BitVec.ofNat 16 (x.toNat + 1))) :=
  if_pos (extentFits_range_iff.2 fits)

theorem exec_storeRegs_of_outside (outside : 0xFFF < s.i.toNat + x.toNat) :
    exec (.storeRegs x) s = s.raise .addressOutOfRange (.storeRegs x) :=
  if_neg (mt extentFits_range_iff.1 outside.not_ge)

theorem exec_loadRegs_of_fits (fits : s.i.toNat + x.toNat ≤ 0xFFF) :
    exec (.loadRegs x) s =
      .next ((s.loadFirst s.i.toNat (x.toNat + 1)).setIndex (s.i + BitVec.ofNat 16 (x.toNat + 1))) :=
  if_pos (extentFits_range_iff.2 fits)

theorem exec_loadRegs_of_outside (outside : 0xFFF < s.i.toNat + x.toNat) :
    exec (.loadRegs x) s = s.raise .addressOutOfRange (.loadRegs x) :=
  if_neg (mt extentFits_range_iff.1 outside.not_ge)

end

/-- Settles O43: the list stored has x + 1 bytes, and its byte r is Vr. -/
theorem storeRegsStoresRange : Obligations.StoreRegsStoresRange := by
  intro x s
  refine ⟨decodeOfEncode (.storeRegs x), fun fits => ?_, fun outside => exec_raise (exec_storeRegs_of_outside x outside)⟩
  have len : (s.firstRegs (x.toNat + 1)).length = x.toNat + 1 := s.firstRegs_length x.isLt
  refine ⟨_, exec_storeRegs_of_fits x fits, fun r hr => ?_, fun a outside => ?_, advancedIndex_toNat fits,
    .trans .setMem .setIndex⟩
  · exact (Memory.read_writeBytes_at _ _ (by omega)).trans (s.firstRegs_getD r (Nat.lt_succ_of_le hr))
  · exact Memory.read_writeBytes_of_outside _ (by omega)

/-- Settles O44. -/
theorem loadRegsLoadsRange : Obligations.LoadRegsLoadsRange := by
  intro x s
  refine ⟨decodeOfEncode (.loadRegs x), fun fits => ?_, fun outside => exec_raise (exec_loadRegs_of_outside x outside)⟩
  have value (r : Nibble) := s.loadFirst_reg s.i.toNat r (count := x.toNat + 1) x.isLt
  refine ⟨_, exec_loadRegs_of_fits x fits, fun r hr => ?_, fun r hr => ?_, advancedIndex_toNat fits,
    .trans (.loadFirst _ _) .setIndex⟩
  · exact (value r).trans (if_pos (Nat.lt_succ_of_le hr))
  · exact (value r).trans (if_neg (Nat.not_lt.2 hr))

/-- Settles O45: register r is loaded from the byte where the store left it. -/
theorem loadUndoesStore : Obligations.LoadUndoesStore := by
  intro x s t u fits stored sameBytes sameIndex
  obtain ⟨t', runs, bytes, -⟩ := (storeRegsStoresRange x s).2.1 fits
  obtain rfl : t' = t := Host.Outcome.next.inj (runs.symm.trans stored)
  obtain ⟨v, loads, regs, -⟩ := (loadRegsLoadsRange x u).2.1 (sameIndex ▸ fits)
  refine ⟨v, loads, fun r hr => ?_⟩
  calc v.reg r = u.byteAt (u.i.toNat + r.toNat) := regs r hr
    _ = t'.byteAt (s.i.toNat + r.toNat) := by rw [sameIndex, sameBytes]
    _ = s.reg r := bytes r hr

end Sys2Proof.Machine
end

section
/-!
PROOFS. The family of 43_display.md. A draw whose bytes are in range answers the blit (`exec_drw_of_fits`), and the laws of the
blitter (Laws/Display.lean) say what that is for every cell and for the collision bit. Of two draws at the same place the
second XORs into each cell the bit that the first XORed into it.
-/

namespace Sys2Proof.Machine

/-- Settles O47. -/
theorem clsClears : Obligations.ClsClears :=
  ⟨decodeOfEncode .cls, fun _ => ⟨_, rfl, fun _ _ _ _ => BitVec.getLsbD_zero, rfl, .setDisplay⟩⟩

/-! ## One draw (43 R161 to R163) -/

theorem flagByte_eq_zero_or_one (c : Bool) : flagByte c = 0x00#8 ∨ flagByte c = 0x01#8 := by cases c <;> decide

theorem flagByte_eq_one_iff {c : Bool} : flagByte c = 0x01#8 ↔ c = true := by cases c <;> decide

theorem exec_drw_of_fits (x y : Nibble) {n : Nibble} {s : State}
    (fits : 1 ≤ n.toNat → s.i.toNat + n.toNat - 1 ≤ 0xFFF) :
    exec (.drw x y n) s = .next ((s.setDisplay (s.blit x y n).fb).setReg regF (flagByte (s.blit x y n).hit)) :=
  if_pos ((extentFits_iff s.i n.toNat).2 fits)

/-- The collision bit starts at 0, so it ends as the collisions of this draw (43 R163). -/
theorem State.blit_hit (s : State) (x y n : Nibble) :
    (s.blit x y n).hit = true ↔ ∃ row col, row < n.toNat ∧ col < 8 ∧
      (s.byteAt (s.i.toNat + row)).getLsbD (7 - col) = true ∧
      fbCell s.fb (((s.reg x).toNat + col) % 64) (((s.reg y).toNat + row) % 32) = true :=
  (blitRows_hit _ _ _ _ _ (by have := n.isLt; omega)).trans (or_iff_right Bool.false_ne_true)

/-- Settles O48: at most 15 rows, so no cell is visited twice (43 R162 d) and the blitter's laws apply. -/
theorem drwBlits : Obligations.DrwBlits := by
  intro x y n s fits
  have rows : n.toNat ≤ 32 := by have := n.isLt; omega
  have flag : ((s.setDisplay (s.blit x y n).fb).setReg regF (flagByte (s.blit x y n).hit)).reg 0xF#4 =
      flagByte (s.blit x y n).hit := State.setReg_reg_self _ _ _
  refine ⟨_, exec_drw_of_fits x y fits, fun row col hr hc => ?_, fun cx cy hx hy unvisited => ?_, ?_, ?_, rfl,
    .setReg (s := s.setDisplay _), .trans .setDisplay .setReg⟩
  · exact blitRows_cell _ _ _ _ _ rows hr hc
  · exact blitRows_other _ _ _ _ _ hx hy unvisited
  · rw [flag]
    exact flagByte_eq_zero_or_one _
  · rw [flag]
    exact flagByte_eq_one_iff.trans (s.blit_hit x y n)

/-! ## Two draws at the same place (43 R163) -/

/-- A row of a sprite is blank exactly when none of its eight pixels is set (43 R162 a). -/
theorem Byte.ne_zero_iff_pixel {b : Byte} : b ≠ 0x00#8 ↔ ∃ col, col < 8 ∧ b.getLsbD (7 - col) = true := by
  constructor
  · intro nonzero
    by_contra blank
    refine nonzero (BitVec.eq_of_getLsbD_eq fun k hk => ?_)
    have mirrored : 7 - (7 - k) = k := by omega
    rw [BitVec.getLsbD_zero, Bool.eq_false_iff]
    exact fun on => blank ⟨7 - k, by omega, mirrored.symm ▸ on⟩
  · rintro ⟨col, -, on⟩ rfl
    simp at on

/-- Settles O49: a visited cell is XORed twice with one bit. On a clear display the first draw leaves each visited cell as its
sprite bit, so the second collides wherever that bit is 1. -/
theorem drawingTwiceRestores : Obligations.DrawingTwiceRestores := by
  intro x y n s t u fits first sameX sameY second
  obtain ⟨t', runs, visitedT, othersT, -, -, -, -, frame⟩ := drwBlits x y n s fits
  obtain rfl : t' = t := Host.Outcome.next.inj (runs.symm.trans first)
  have index : t'.i = s.i := frame .index (by decide)
  have bytes (a : Nat) : t'.byteAt a = s.byteAt a := frame .mem (by decide) a
  obtain ⟨u', runs', visitedU, othersU, -, flagU, -⟩ := drwBlits x y n t' (index ▸ fits)
  obtain rfl : u' = u := Host.Outcome.next.inj (runs'.symm.trans second)
  simp only [sameX, sameY, index, bytes] at visitedU othersU flagU
  refine ⟨fun cx cy hx hy => ?_, fun clear => flagU.trans ?_⟩
  · by_cases visited : ∃ row col, row < n.toNat ∧ col < 8 ∧
        cx = ((s.reg x).toNat + col) % 64 ∧ cy = ((s.reg y).toNat + row) % 32
    · obtain ⟨row, col, hr, hc, rfl, rfl⟩ := visited
      rw [visitedU row col hr hc, visitedT row col hr hc, Bool.xor_assoc, Bool.xor_self, Bool.xor_false]
    · have unvisited row col (hr : row < n.toNat) (hc : col < 8) here := visited ⟨row, col, hr, hc, here⟩
      rw [othersU cx cy hx hy unvisited, othersT cx cy hx hy unvisited]
  · have drawn row col (hr : row < n.toNat) (hc : col < 8) :
        fbCell t'.fb (((s.reg x).toNat + col) % 64) (((s.reg y).toNat + row) % 32) =
          (s.byteAt (s.i.toNat + row)).getLsbD (7 - col) := by
      rw [visitedT row col hr hc, clear _ _ (Nat.mod_lt _ (by decide)) (Nat.mod_lt _ (by decide)), Bool.false_xor]
    simp only [Byte.ne_zero_iff_pixel]
    constructor
    · rintro ⟨row, col, hr, hc, on, -⟩
      exact ⟨row, hr, col, hc, on⟩
    · rintro ⟨row, hr, col, hc, on⟩
      exact ⟨row, col, hr, hc, on, (drawn row col hr hc).trans on⟩

end Sys2Proof.Machine
end

section
/-!
PROOFS. The family of 44_timers_keys.md. The timer moves, the key skips and the start of a key wait each make one update of the
state. A key wait begins with a step, is left alone by every further step (`step_of_idle`), and ends when set_key presses a
key that was up (`cmdSetKey_of_press`).
-/

namespace Sys2Proof.Machine

/-! ## Timers (44 R170 to R172) -/

/-- Settles O50. -/
theorem delayTimerMoves : Obligations.DelayTimerMoves := fun x _ =>
  ⟨⟨decodeOfEncode (.readDelay x), exec_setReg rfl⟩, ⟨decodeOfEncode (.setDelay x), _, rfl, rfl, .setDT⟩⟩

/-- Settles O51. -/
theorem soundTimerSet : Obligations.SoundTimerSet := fun _ _ => ⟨_, rfl, rfl, .setST⟩

/-! ## Key skips (44 R173, R174, R176) -/

theorem lowNibble_eq_iff {b : Byte} {k : Nibble} : lowNibble b = k ↔ k.toNat = b.toNat % 16 := by
  rw [← BitVec.toNat_inj, lowNibble_toNat, eq_comm]

/-- Settles O52: k is the key that the instruction reads; SKNP tests its complement. -/
theorem keySkips : Obligations.KeySkips := by
  intro x k s named
  obtain rfl : lowNibble (s.reg x) = k := lowNibble_eq_iff.2 named
  obtain ⟨t, runs, pc, frame⟩ := exec_skipIf (i := .sknp x) (s := s) rfl
  exact ⟨exec_skipIf rfl, t, runs, by simpa only [Bool.not_eq_true', ← Bool.not_eq_true, ite_not] using pc, frame⟩

/-! ## The key wait (44 R175, 45 R194) -/

theorem exec_waitKey (x : Nibble) (s : State) : exec (.waitKey x) s = .next (s.setRun (.waitingForKey x)) := rfl

/-- Settles O53. -/
theorem waitKeyEntersTheWait : Obligations.WaitKeyEntersTheWait := fun x s => ⟨_, exec_waitKey x s, rfl, .setRun⟩

/-- A faulted or waiting engine does nothing in a step (45 R192). -/
theorem step_of_idle {s : State} (idle : s.idle = true) : step s = .next s := if_pos idle

/-- A press edge during a wait records the key, hands its number to the waiting register and resumes (45 R194). -/
theorem cmdSetKey_of_press {s : State} {k r : Nibble} (noFault : s.fault = none) (waiting : s.run = .waitingForKey r)
    (up : s.key k = false) :
    cmdSetKey k true s = ((s.setKeyState k true).setReg r (k.setWidth 8)).setRun .running := by
  simp [cmdSetKey, noFault, waiting, up]

theorem SameBut.setKeyState {l : List Part} {s : State} {k : Nibble} {b : Bool} (h : .keys ∈ l := by simp [writes]) :
    SameBut l s (s.setKeyState k b) := by
  simp [SameBut, Part.forall_iff, Part.same, h]

/-- Settles O54: the wait is entered on the state after fetch, so pc is A + 2 until the press and after it. The press puts back
the run state that the wait replaced, so that the whole excursion changes registers, keys and pc alone. -/
theorem waitEndsWithAPress : Obligations.WaitEndsWithAPress := by
  intro font x k s noFault running inRange decoded up
  have enters : step s = .next (s.advance.setRun (.waitingForKey x)) :=
    (step_of_decode (s.not_idle_iff.2 ⟨noFault, running⟩) (decide_eq_true inRange) decoded).trans (exec_waitKey x _)
  have holds : step (s.advance.setRun (.waitingForKey x)) = .next (s.advance.setRun (.waitingForKey x)) :=
    step_of_idle ((State.idle_iff _).2 (.inr ⟨x, rfl⟩))
  have ends : (runCommand font (.setKey k true) (s.advance.setRun (.waitingForKey x))).1 =
      (s.advance.setKeyState k true).setReg x (k.setWidth 8) :=
    calc cmdSetKey k true (s.advance.setRun (.waitingForKey x))
        = ((s.advance.setKeyState k true).setReg x (k.setWidth 8)).setRun .running := cmdSetKey_of_press noFault rfl up
      _ = (s.advance.setKeyState k true).setReg x (k.setWidth 8) := by rw [← running]; rfl
  refine ⟨_, _, enters, rfl, holds, ends, ?_, ?_, running, rfl, .setReg (s := s.advance.setKeyState k true),
    .trans .setPc (.trans .setKeyState .setReg)⟩
  · rw [State.setReg_reg_self]
    exact BitVec.toNat_setWidth_of_le (by decide)
  · rw [State.setReg_key, State.setKeyState_key, if_pos rfl]

end Sys2Proof.Machine
end

section
/-!
PROOFS. The family of 45_host_commands.md. First what each command does, one rule per case of its definition: without a fault
it makes one short chain of updates of the state, and while a fault is latched it makes none. The statements then read the
fields of those updates. That the redraw flag is sticky rests on what every instruction does to it (`exec_keeps_redraw`).
-/

namespace Sys2Proof.Machine

/-! ## The step (45 R192) -/

/-- Settles O6: the advanced state is the state with pc moved on by 2. -/
theorem stepRunsDecodedInstruction : Obligations.StepRunsDecodedInstruction :=
  fun s _ noFault running inRange decoded =>
    step_of_decode (s.not_idle_iff.2 ⟨noFault, running⟩) (decide_eq_true inRange) decoded

/-- Settles O7. -/
theorem stepIdleChangesNothing : Obligations.StepIdleChangesNothing := fun s idle => step_of_idle (s.idle_iff.2 idle)

theorem cmdStep_of_next {s t : State} (runs : step s = .next t) : cmdStep s = (t, .redraw t.redrawPending) := by
  rw [cmdStep, runs]

/-! ## Each command while a fault is latched (45 R200) -/

section
variable {s : State}

theorem cmdLoadProgram_of_fault (faulted : s.fault.isSome = true) (bytes : List Byte) :
    (cmdLoadProgram bytes s).1 = s := by
  rw [cmdLoadProgram, if_pos faulted]
  split <;> rfl

theorem cmdSetKey_of_fault (faulted : s.fault.isSome = true) (k : Nibble) (pressed : Bool) : cmdSetKey k pressed s = s :=
  if_pos faulted

theorem cmdTickTimers_of_fault (faulted : s.fault.isSome = true) : cmdTickTimers s = (s, false) := if_pos faulted

theorem cmdClearRedraw_of_fault (faulted : s.fault.isSome = true) : cmdClearRedraw s = s := if_pos faulted

end

/-- Settles O55. -/
theorem faultedEngineIsFrozen : Obligations.FaultedEngineIsFrozen := by
  intro font c s fault notInitialize
  have faulted : s.fault.isSome = true := Option.isSome_iff_ne_none.2 fault
  have stepped : cmdStep s = (s, .redraw s.redrawPending) := cmdStep_of_next (step_of_idle (s.idle_iff.2 (.inl fault)))
  cases c with
  | initializeAt start => exact absurd rfl (notInitialize start)
  | loadProgram bytes => exact ⟨cmdLoadProgram_of_fault faulted bytes, nofun, nofun⟩
  | setKey k pressed => exact ⟨cmdSetKey_of_fault faulted k pressed, nofun, nofun⟩
  | step => exact ⟨congrArg Prod.fst stepped, nofun, fun _ => congrArg Prod.snd stepped⟩
  | tickTimers => simp [runCommand, cmdTickTimers_of_fault faulted]
  | display => exact ⟨rfl, nofun, nofun⟩
  | clearRedraw => exact ⟨cmdClearRedraw_of_fault faulted, nofun, nofun⟩

/-! ## The timer tick (45 R196) -/

theorem cmdTickTimers_of_noFault {s : State} (noFault : s.fault = none) :
    cmdTickTimers s = ((s.setDT (countDown s.dt)).setST (countDown s.st), s.st == 0x01#8) := by
  simp [cmdTickTimers, noFault]

theorem countDown_toNat (t : Byte) : (countDown t).toNat = t.toNat - 1 := by
  unfold countDown
  split
  · next zero => rw [zero]; rfl
  · next pos => bv_omega

/-- The tone stops where the sound timer reads 1, for then and only then it goes from 1 to 0. -/
theorem toneStop_eq (t : Byte) : (t == 0x01#8) = decide (t.toNat = 1 ∧ (countDown t).toNat = 0) := by
  have one : t = 0x01#8 ↔ t.toNat = 1 := BitVec.toNat_inj.symm
  rw [Bool.beq_eq_decide_eq, decide_eq_decide, countDown_toNat, one]
  omega

/-- Settles O56. -/
theorem tickCountsDown : Obligations.TickCountsDown := by
  intro font s noFault
  have tick : runCommand font .tickTimers s =
      ((s.setDT (countDown s.dt)).setST (countDown s.st), .toneStop (s.st == 0x01#8)) := by
    rw [runCommand, cmdTickTimers_of_noFault noFault]
  refine ⟨_, congrArg Prod.fst tick, countDown_toNat s.dt, countDown_toNat s.st, ?_, .trans .setDT .setST⟩
  rw [tick, State.setST_st, toneStop_eq]

/-! ## Keys (45 R194) -/

/-- A level that is no press edge of a waiting engine is recorded, and that is all. -/
theorem cmdSetKey_of_noEdge {s : State} {k : Nibble} {pressed : Bool} (noFault : s.fault = none)
    (noEdge : s.run = .running ∨ pressed = false ∨ s.key k = true) : cmdSetKey k pressed s = s.setKeyState k pressed := by
  cases running : s.run with
  | running => simp [cmdSetKey, noFault, running]
  | waitingForKey r =>
    have still : (pressed && !s.key k) = false := by simpa [running, imp_iff_not_or] using noEdge
    simp [cmdSetKey, noFault, running, still]

/-- What is no press edge of a waiting engine has one of the three reasons of `cmdSetKey_of_noEdge`. -/
theorem edge_or_noEdge (s : State) (k : Nibble) (pressed : Bool) :
    (∃ r, s.run = .waitingForKey r ∧ pressed = true ∧ s.key k = false) ∨
      (s.run = .running ∨ pressed = false ∨ s.key k = true) :=
  match s.run, pressed, s.key k with
  | .running, _, _ => .inr (.inl rfl)
  | .waitingForKey _, false, _ => .inr (.inr (.inl rfl))
  | .waitingForKey _, true, true => .inr (.inr (.inr rfl))
  | .waitingForKey r, true, false => .inl ⟨r, rfl, rfl, rfl⟩

/-- Settles O57: at a press edge of a waiting engine the wait ends, and everywhere else the level is recorded alone. -/
theorem setKeyRecordsAndResolves : Obligations.SetKeyRecordsAndResolves := by
  intro font k pressed s noFault
  have recorded : (s.setKeyState k pressed).key k = pressed := by rw [State.setKeyState_key, if_pos rfl]
  have others (q : Nibble) (hq : q ≠ k) : (s.setKeyState k pressed).key q = s.key q := by
    rw [State.setKeyState_key, if_neg hq]
  obtain ⟨r, waiting, rfl, up⟩ | noEdge := edge_or_noEdge s k pressed
  · refine ⟨_, cmdSetKey_of_press noFault waiting up, recorded, others, .trans .setKeyState (.trans .setReg .setRun), ?_, ?_⟩
    · intro r' waiting' _ _
      obtain rfl : r = r' := by simpa [waiting] using waiting'
      exact ⟨rfl, State.setReg_reg_self _ r _, .setReg (s := s.setKeyState k true)⟩
    · simp [waiting, up]
  · refine ⟨_, cmdSetKey_of_noEdge noFault noEdge, recorded, others, .setKeyState, ?_, fun _ => ⟨rfl, fun _ => rfl⟩⟩
    intro r waiting press up
    simp [waiting, press, up] at noEdge

/-! ## Loading a program (45 R193) -/

theorem cmdLoadProgram_of_fits {s : State} {bytes : List Byte} (noFault : s.fault = none) (fits : bytes.length ≤ 3584) :
    cmdLoadProgram bytes s = (s.setMem (s.mem.writeBytes 0x200 bytes), .accepted) := by
  simp [cmdLoadProgram, maxProgram, loadAddress, noFault, fits]

theorem cmdLoadProgram_of_tooLarge (s : State) {bytes : List Byte} (tooLarge : 3584 < bytes.length) :
    cmdLoadProgram bytes s = (s, .programTooLarge) := if_pos tooLarge

/-- Settles O58. -/
theorem loadProgramCopies : Obligations.LoadProgramCopies := by
  refine fun font bytes s noFault => ⟨fun fits => ?_, cmdLoadProgram_of_tooLarge s⟩
  refine ⟨_, cmdLoadProgram_of_fits noFault fits, fun k inside => ?_, fun a outside => ?_, .setMem⟩
  · exact (Memory.read_writeBytes_at _ _ inside).trans (List.getD_eq_getElem bytes _ inside)
  · exact Memory.read_writeBytes_of_outside _ outside

/-! ## The display and its redraw flag (45 R197, R198, R203) -/

/-- Settles O59: the grid is `fb`, and `fbCell` reads it at that index. -/
theorem displayReadsTheGrid : Obligations.DisplayReadsTheGrid := fun _ s => ⟨rfl, s.fb, rfl, fun _ _ _ _ => rfl⟩

theorem cmdClearRedraw_of_noFault {s : State} (noFault : s.fault = none) : cmdClearRedraw s = s.clearRedraw := by
  simp [cmdClearRedraw, noFault]

theorem SameBut.clearRedraw {l : List Part} {s : State} (h : .redraw ∈ l := by simp [writes]) :
    SameBut l s s.clearRedraw := by
  simp [SameBut, Part.forall_iff, Part.same, h]

/-- Only a clear and a draw write the flag, and both set it; a draw that faults leaves it (10 R32, R38). -/
theorem exec_keeps_redraw (i : Instr) (s : State) :
    Answers (exec i s) fun t => s.redrawPending = true → t.redrawPending = true := by
  cases i with
  | cls => exact .next fun _ => rfl
  | drw x y n => exact .checked (fun _ _ => rfl) fun _ pending => pending
  | _ => exact fun t h pending => (exec_sameBut _ s t h .redraw (by simp [writes])).trans pending

theorem step_keeps_redraw (s : State) : Answers (step s) fun t => s.redrawPending = true → t.redrawPending = true := by
  obtain ⟨-, h⟩ | ⟨-, -, h⟩ | ⟨-, -, w, -, h⟩ | ⟨-, -, i, -, h⟩ := step_cases s <;> rw [h]
  · exact .next id
  · exact .next id
  · exact .next id
  · exact exec_keeps_redraw i s.advance

/-- The command moves to the state its step answers, or stays, and answers the flag of the state it ends in. -/
theorem cmdStep_cases (s : State) : ∃ t, (step s = .next t ∨ t = s) ∧ cmdStep s = (t, .redraw t.redrawPending) := by
  unfold cmdStep
  split
  · next t runs => exact ⟨t, .inl runs, rfl⟩
  · exact ⟨s, .inr rfl, rfl⟩
  · exact ⟨s, .inr rfl, rfl⟩

/-- Settles O60. -/
theorem redrawFlagIsSticky : Obligations.RedrawFlagIsSticky := by
  refine ⟨fun font s noFault => ⟨_, cmdClearRedraw_of_noFault noFault, rfl, .clearRedraw⟩, fun font s => ?_⟩
  obtain ⟨t, runs | rfl, ends⟩ := cmdStep_cases s <;> rw [runCommand, ends]
  · exact ⟨rfl, step_keeps_redraw s t runs⟩
  · exact ⟨rfl, id⟩

end Sys2Proof.Machine
end

section
/-!
PROOFS. The family of 60_exceptions.md. `Raises` lists the faults of instructions with their causes (R212, R213, R215). An
instruction with such a cause raises that fault (`exec_of_raises`); every other one completes and leaves the latch alone
(`exec_completes_or_raises`). What a step latches, and that the latched record is evidenced, follows from these two.
-/

namespace Sys2Proof.Machine

/-! ## Which instruction can raise what (60 R228) -/

/-- The instruction, executed in the state, has the cause of a fault of this kind. -/
inductive Raises : Instr → State → FaultKind → Prop where
  /-- 60 R212 -/
  | stackOverflow {nnn : Addr} {s : State} (full : s.sp.val = 16) : Raises (.call nnn) s .stackOverflow
  /-- 60 R213 -/
  | stackUnderflow {s : State} (empty : s.sp.val = 0) : Raises .ret s .stackUnderflow
  /-- 60 R215 -/
  | addressOutOfRange {i : Instr} {s : State} {len : Nat} (extent : dataExtent i = some len) (pos : 1 ≤ len)
      (outside : 0xFFF < s.i.toNat + len - 1) : Raises i s .addressOutOfRange

theorem exec_call_of_full (nnn : Addr) {s : State} (full : s.sp.val = 16) :
    exec (.call nnn) s = s.raise .stackOverflow (.call nnn) := by
  simp only [exec, execCall, (s.push_eq_none_iff s.pc).2 full]

theorem exec_ret_of_empty {s : State} (empty : s.sp.val = 0) : exec .ret s = s.raise .stackUnderflow .ret := by
  simp only [exec, execRet, s.popPc_eq_none_iff.2 empty]

theorem State.loadFirst_fault (s : State) (base count : Nat) : (s.loadFirst base count).fault = s.fault := by
  obtain ⟨regs, h⟩ := s.loadFirst_cases base count
  rw [h]

/-- The four data accesses check their extent, and those that pass the check leave the latch alone (20 R54). -/
theorem exec_of_dataExtent {i : Instr} {len : Nat} (s : State) (extent : dataExtent i = some len) :
    ∃ t, exec i s = (if extentFits s.i len then .next t else s.raise .addressOutOfRange i) ∧ t.fault = s.fault := by
  cases i with
  | drw _ _ _ | storeBcd _ | storeRegs _ =>
    cases extent
    exact ⟨_, rfl, rfl⟩
  | loadRegs _ =>
    cases extent
    exact ⟨_, rfl, s.loadFirst_fault _ _⟩
  | _ => cases extent

theorem exec_of_raises {i : Instr} {s : State} {k : FaultKind} (cause : Raises i s k) : exec i s = s.raise k i := by
  cases cause with
  | stackOverflow full => exact exec_call_of_full _ full
  | stackUnderflow empty => exact exec_ret_of_empty empty
  | addressOutOfRange extent pos outside =>
    obtain ⟨t, meaning, -⟩ := exec_of_dataExtent s extent
    rw [meaning, (not_extentFits_iff s.i _).2 ⟨pos, outside⟩, if_neg Bool.false_ne_true]

theorem dataAccess_completes_or_raises {i : Instr} {len : Nat} (s : State) (extent : dataExtent i = some len) :
    (∃ t, exec i s = .next t ∧ t.fault = s.fault) ∨ ∃ k, Raises i s k := by
  obtain ⟨t, meaning, kept⟩ := exec_of_dataExtent s extent
  cases fits : extentFits s.i len with
  | true => exact .inl ⟨t, meaning.trans (if_pos fits), kept⟩
  | false =>
    obtain ⟨pos, outside⟩ := (not_extentFits_iff s.i len).1 fits
    exact .inr ⟨_, .addressOutOfRange extent pos outside⟩

theorem State.skipIf_fault (s : State) (c : Bool) : (s.skipIf c).fault = s.fault := by
  rw [State.skipIf_eq, State.setPc_fault]

theorem State.push_fault {s t : State} {a : Word} (h : s.push a = some t) : t.fault = s.fault := by
  obtain ⟨_, _, _, rfl, -⟩ := State.push_cases h
  rfl

theorem State.popPc_fault {s t : State} (h : s.popPc = some t) : t.fault = s.fault := by
  obtain ⟨_, _, rfl, -⟩ := State.popPc_cases h
  rfl

/-- The instructions that can fault one by one; the remaining 28 only ever make updates that leave the latch alone. -/
theorem exec_completes_or_raises (i : Instr) (s : State) :
    (∃ t, exec i s = .next t ∧ t.fault = s.fault) ∨ ∃ k, Raises i s k := by
  cases i with
  | call nnn =>
    obtain free | full := Nat.lt_or_eq_of_le (Nat.le_of_lt_succ s.sp.isLt)
    · obtain ⟨t, pushed, runs⟩ := exec_call_of_lt nnn free
      exact .inl ⟨_, runs, (t.setPc_fault _).trans (State.push_fault pushed)⟩
    · exact .inr ⟨_, .stackOverflow full⟩
  | ret =>
    by_cases empty : s.sp.val = 0
    · exact .inr ⟨_, .stackUnderflow empty⟩
    · obtain ⟨t, popped, runs⟩ := exec_ret_of_live empty
      exact .inl ⟨t, runs, State.popPc_fault popped⟩
  | drw _ _ _ | storeBcd _ | storeRegs _ | loadRegs _ => exact dataAccess_completes_or_raises s rfl
  | seImm _ _ | sneImm _ _ | seReg _ _ | sneReg _ _ | skp _ | sknp _ => exact .inl ⟨_, rfl, s.skipIf_fault _⟩
  | _ => exact .inl ⟨_, rfl, rfl⟩

/-- The latch after an instruction: as before, or the record of the fault that the instruction had cause to raise. -/
theorem exec_latches_only_raised (i : Instr) (s : State) : Answers (exec i s) fun t => t.fault = s.fault ∨
    ∃ k, Raises i s k ∧ t = s.latch { kind := k, opcode := some (encode i), address := s.pc - 2#16 } := by
  obtain ⟨t, runs, kept⟩ | ⟨k, cause⟩ := exec_completes_or_raises i s
  · rw [runs]
    exact .next (.inl kept)
  · rw [exec_of_raises cause]
    exact .next (.inr ⟨k, cause, rfl⟩)

/-- Settles O20: the kinds are the three of `Raises`. -/
theorem eachInstructionRaisesOnlyItsFault : Obligations.EachInstructionRaisesOnlyItsFault := by
  intro i s t runs
  obtain kept | ⟨k, cause, rfl⟩ := exec_latches_only_raised i s t runs
  · exact .inl kept
  · refine .inr ⟨k, rfl, ?_⟩
    cases cause with
    | stackOverflow => exact .inl ⟨rfl, _, rfl⟩
    | stackUnderflow => exact .inr (.inl ⟨rfl, rfl⟩)
    | addressOutOfRange extent pos => exact .inr (.inr ⟨rfl, _, extent, pos⟩)

/-- Settles O10: an instruction completes or raises a fault, and both are next states. -/
theorem everyStepAnswersNext : Obligations.EveryStepAnswersNext := by
  have execAnswers (i : Instr) (s : State) : ∃ t, exec i s = .next t := by
    obtain ⟨t, runs, -⟩ | ⟨k, cause⟩ := exec_completes_or_raises i s
    · exact ⟨t, runs⟩
    · exact ⟨_, exec_of_raises cause⟩
  refine ⟨execAnswers, fun s => ?_⟩
  obtain ⟨-, h⟩ | ⟨-, -, h⟩ | ⟨-, -, w, -, h⟩ | ⟨-, -, i, -, h⟩ := step_cases s <;> rw [h]
  · exact ⟨s, rfl⟩
  · exact ⟨_, rfl⟩
  · exact ⟨_, rfl⟩
  · exact execAnswers i s.advance

/-! ## The faults of the step itself (60 R211, R214) -/

/-- Settles O8. -/
theorem stepPcOutOfRange : Obligations.StepPcOutOfRange := fun s noFault running outside =>
  ⟨_, step_of_not_fetchable (s.not_idle_iff.2 ⟨noFault, running⟩) (decide_eq_false outside.not_ge), rfl, .latch _⟩

theorem step_of_illegal {s : State} (ready : s.idle = false) (fetchable : s.fetchable = true)
    (illegal : legalWord s.fetchWord = false) : step s = .next (s.unknownFault s.fetchWord) := by
  simp [step, ready, fetchable, decode_unknown_iff.2 illegal]

/-- Settles O9: the decoder refuses an illegal word, after fetch has advanced pc. -/
theorem stepUnknownOpcode : Obligations.StepUnknownOpcode := fun s noFault running inRange illegal =>
  ⟨_, step_of_illegal (s.not_idle_iff.2 ⟨noFault, running⟩) (decide_eq_true inRange) illegal, rfl, rfl,
    .trans .setPc (.latch _)⟩

/-! ## The faults of the instruction that a step fetches (60 R212, R213, R215) -/

theorem State.advance_pc_sub_two (s : State) : s.advance.pc - 2#16 = s.pc := BitVec.add_sub_cancel s.pc 2#16

/-- The step latches the fetched word and the address it was fetched from, and writes nothing else but pc (60 R216). -/
theorem step_of_raises {s : State} {i : Instr} {k : FaultKind} (noFault : s.fault = none) (running : s.run = .running)
    (inRange : s.pc.toNat ≤ 0xFFE) (decoded : decode s.fetchWord = .instr i) (cause : Raises i s.advance k) :
    ∃ t, step s = .next t ∧ t.fault = some { kind := k, opcode := some s.fetchWord, address := s.pc } ∧
      t.pc = s.pc + 2#16 ∧ SameBut [.pc, .fault] s t := by
  have runs := step_of_decode (s.not_idle_iff.2 ⟨noFault, running⟩) (decide_eq_true inRange) decoded
  rw [exec_of_raises cause, State.raise_eq, encode_of_decode decoded, State.advance_pc_sub_two] at runs
  exact ⟨_, runs, rfl, rfl, .trans .setPc (.latch _)⟩

/-- A fault found latched after an instruction that began without one is a fault the instruction had cause to raise. -/
theorem raises_of_latched {i : Instr} {s t : State} {r : FaultRecord} (noFault : s.fault = none)
    (runs : exec i s = .next t) (latched : t.fault = some r) : Raises i s r.kind := by
  obtain kept | ⟨k, cause, rfl⟩ := exec_latches_only_raised i s t runs
  · simp [kept, noFault] at latched
  · obtain rfl := Option.some.inj latched
    exact cause

/-- Settles O35. -/
theorem callOverflowFaults : Obligations.CallOverflowFaults := by
  refine ⟨fun nnn s noFault running inRange decoded full => ?_, fun i s t r noFault runs latched kind => ?_⟩
  · exact step_of_raises noFault running inRange decoded (.stackOverflow full)
  · have cause := raises_of_latched noFault runs latched
    rw [kind] at cause
    cases cause with
    | stackOverflow => exact ⟨_, rfl⟩

/-- Settles O36: the fetched word is the encoding of RET. -/
theorem retUnderflowFaults : Obligations.RetUnderflowFaults := by
  refine ⟨fun s noFault running inRange decoded empty => ?_, fun i s t r noFault runs latched kind => ?_⟩
  · have word : 0x00EE#16 = s.fetchWord := encode_of_decode decoded
    rw [word]
    exact step_of_raises noFault running inRange decoded (.stackUnderflow empty)
  · have cause := raises_of_latched noFault runs latched
    rw [kind] at cause
    cases cause with
    | stackUnderflow => rfl

/-- Settles O46. -/
theorem dataAccessFaults : Obligations.DataAccessFaults := fun _ _ _ noFault running inRange decoded extent pos outside =>
  step_of_raises noFault running inRange decoded (.addressOutOfRange extent pos outside)

/-! ## A latched record agrees with the stopped state (60 R211 to R216) -/

theorem FaultsAreEvidenced.of_noFault {s : State} (noFault : s.fault = none) : FaultsAreEvidenced s := fun r latched => by
  simp [noFault] at latched

theorem FaultsAreEvidenced.latch {s : State} {r : FaultRecord} (evidence : FaultEvidence (s.latch r) r) :
    FaultsAreEvidenced (s.latch r) := by
  rintro _ ⟨⟩
  exact evidence

/-- The cause is read off sp or I, which raising the fault leaves alone. -/
theorem Raises.evidenced {i : Instr} {s : State} {k : FaultKind} (inRange : s.pc.toNat ≤ 0xFFE)
    (cause : Raises i s.advance k) :
    FaultsAreEvidenced (s.advance.latch { kind := k, opcode := some (encode i), address := s.pc }) := by
  apply FaultsAreEvidenced.latch
  cases cause with
  | stackOverflow full => exact ⟨⟨_, rfl⟩, full, rfl, inRange⟩
  | stackUnderflow empty => exact ⟨rfl, empty, rfl, inRange⟩
  | addressOutOfRange extent pos outside => exact ⟨⟨_, _, rfl, extent, pos, outside⟩, rfl, inRange⟩

/-- An instruction that a step runs begins without a fault, so the latch is clear after it or holds its own record. -/
theorem exec_advance_evidenced (i : Instr) {s : State} (noFault : s.fault = none) (inRange : s.pc.toNat ≤ 0xFFE) :
    Answers (exec i s.advance) FaultsAreEvidenced := by
  intro t runs
  obtain kept | ⟨k, cause, rfl⟩ := exec_latches_only_raised i s.advance t runs
  · exact .of_noFault (kept.trans noFault)
  · rw [State.advance_pc_sub_two]
    exact cause.evidenced inRange

theorem step_evidenced {s : State} (evidenced : FaultsAreEvidenced s) : Answers (step s) FaultsAreEvidenced := by
  obtain ⟨-, h⟩ | ⟨-, outside, h⟩ | ⟨-, inRange, w, refused, h⟩ | ⟨ready, inRange, i, -, h⟩ := step_cases s <;> rw [h]
  · exact .next evidenced
  · exact .next (.latch ⟨rfl, rfl, Nat.lt_of_not_le (of_decide_eq_false outside)⟩)
  · obtain ⟨rfl, illegal⟩ := unknown_of_decode refused
    exact .next (.latch ⟨⟨_, rfl, illegal⟩, rfl, of_decide_eq_true inRange⟩)
  · exact exec_advance_evidenced i (s.not_idle_iff.1 ready).1 (of_decide_eq_true inRange)

/-- Settles O15: an idle step keeps the record, a fault at fetch or decode records what it found there, and an instruction
records the cause it had. -/
theorem stepKeepsFaultEvidence : Obligations.StepKeepsFaultEvidence := fun _ t evidenced runs =>
  step_evidenced evidenced t runs

/-! ## The states the host can reach (45 R199) -/

theorem State.initialized_meets_invariants (s : State) (font : Font) (start : Word) :
    MemoryCanonical (s.initialized font start) ∧ FaultsAreEvidenced (s.initialized font start) :=
  ⟨Memory.loadFont_wf font, .of_noFault rfl⟩

theorem cmdSetKey_of_noFault {s : State} (noFault : s.fault = none) (k : Nibble) (pressed : Bool) :
    (cmdSetKey k pressed s).mem = s.mem ∧ (cmdSetKey k pressed s).fault = none := by
  obtain ⟨r, waiting, rfl, up⟩ | noEdge := edge_or_noEdge s k pressed
  · rw [cmdSetKey_of_press noFault waiting up]
    exact ⟨rfl, noFault⟩
  · rw [cmdSetKey_of_noEdge noFault noEdge]
    exact ⟨rfl, noFault⟩

/-- A program that is copied ends at or below 0xFFF (45 R193). -/
theorem cmdLoadProgram_of_noFault {s : State} (noFault : s.fault = none) (canonical : MemoryCanonical s)
    (bytes : List Byte) :
    MemoryCanonical (cmdLoadProgram bytes s).1 ∧ (cmdLoadProgram bytes s).1.fault = none := by
  obtain fits | tooLarge := le_or_gt bytes.length 3584
  · rw [cmdLoadProgram_of_fits noFault fits]
    exact ⟨Memory.wf_writeBytes canonical (Nat.add_le_add_left fits 0x200), noFault⟩
  · rw [cmdLoadProgram_of_tooLarge s tooLarge]
    exact ⟨canonical, noFault⟩

theorem cmdStep_keeps_invariants {s : State} (canonical : MemoryCanonical s) (evidenced : FaultsAreEvidenced s) :
    MemoryCanonical (cmdStep s).1 ∧ FaultsAreEvidenced (cmdStep s).1 := by
  obtain ⟨t, runs | rfl, ends⟩ := cmdStep_cases s <;> rw [ends]
  · exact ⟨stepKeepsMemoryCanonical s t canonical runs, stepKeepsFaultEvidence s t evidenced runs⟩
  · exact ⟨canonical, evidenced⟩

/-- A faulted engine moves only by `cmdInitialize` (45 R200). One without a fault latches one only in a step, and stores only in a
step and in load_program. -/
theorem runCommand_keeps_invariants (font : Font) (c : Command) {s : State} (canonical : MemoryCanonical s)
    (evidenced : FaultsAreEvidenced s) :
    MemoryCanonical (runCommand font c s).1 ∧ FaultsAreEvidenced (runCommand font c s).1 := by
  by_cases noFault : s.fault = none
  · cases c with
    | initializeAt start => exact s.initialized_meets_invariants font start
    | loadProgram bytes =>
      obtain ⟨canonical', noFault'⟩ := cmdLoadProgram_of_noFault noFault canonical bytes
      exact ⟨canonical', .of_noFault noFault'⟩
    | setKey k pressed =>
      obtain ⟨sameMem, noFault'⟩ := cmdSetKey_of_noFault noFault k pressed
      exact ⟨(congrArg Memory.wf sameMem).trans canonical, .of_noFault noFault'⟩
    | step => exact cmdStep_keeps_invariants canonical evidenced
    | tickTimers =>
      rw [runCommand, cmdTickTimers_of_noFault noFault]
      exact ⟨canonical, .of_noFault noFault⟩
    | display => exact ⟨canonical, evidenced⟩
    | clearRedraw =>
      rw [runCommand, cmdClearRedraw_of_noFault noFault]
      exact ⟨canonical, .of_noFault noFault⟩
  · cases c with
    | initializeAt start => exact s.initialized_meets_invariants font start
    | _ =>
      rw [(faultedEngineIsFrozen font _ s noFault (by simp)).1]
      exact ⟨canonical, evidenced⟩

/-- Settles O17, by induction on the sequence of commands. -/
theorem reachableStatesMeetInvariants : Obligations.ReachableStatesMeetInvariants := by
  intro font s reached
  induction reached with
  | initialized start => exact State.reset.initialized_meets_invariants font start
  | command c s _ ih =>
    obtain ⟨canonical, evidenced⟩ := ih
    exact runCommand_keeps_invariants font c canonical evidenced

end Sys2Proof.Machine
end
